-- ==== Sys2Proof/Word.lean ====
section
/-! DEFINITION. The words of the block (00_scope R10, 41_log_arith R121) and the numbers of its NUM ports (00_scope R7).
NUM is a parameter of the spec: a number type with `+`, `*`, `/`, `sin`, `exp2`, `2π` and `wrap`, format open (92 D14).
The model keeps a NUM value as the exact expression that produced it, operation by operation in the order the rule
writes it (42 R175): plain data, which every instance of NUM (the reals, a float format) evaluates. DESIGN CHOICE,
notes/assumptions/3.md. -/

namespace Sys2Proof

abbrev Byte := BitVec 8

/-- A level word or another s32 datum: signed two's complement, Q8.24 for levels (10_state R23, 41 R121). -/
abbrev S32 := BitVec 32

/-- A value of the number type NUM, as the expression that produced it. -/
inductive NUM where
  /-- an integer -/
  | int (n : Int)
  /-- a number the host presents that is not written as an expression; `k` is its name -/
  | given (k : Nat)
  /-- the constant `2π` -/
  | twoPi
  | add (x y : NUM)
  | mul (x y : NUM)
  | div (x y : NUM)
  | sin (x : NUM)
  | exp2 (x : NUM)
  /-- `wrap`, the representative in `[0, 2π)` (00_scope R12) -/
  | wrap (x : NUM)
  deriving DecidableEq, Repr, Inhabited

/-- The sign of a NUM value: all the order test that `FM.INIT` needs (42 R153). -/
inductive Sign where
  | neg
  | zero
  | pos
  deriving DecidableEq, Repr, Inhabited

end Sys2Proof
end

