-- ==== Sys2Proof/Config.lean ====
section
/-! DEFINITION. What the spec fixes as constants (00_scope R6), the shape of the configuration record CFG (R7), the
packing of a topology entry (42 R150), and the free values. The free configuration itself, `Config.cfg`, stands in
Config/Chosen.lean, after the formulas that R8 constrains it by. -/

namespace Sys2Proof

/-- The configuration record CFG (00_scope R7): the constants and tables the document names but does not give.
ROM contents are held as unbounded naturals (92 D9); R8 bounds them. -/
structure Cfg where
  /-- LEVEL_LUT, the contents of LUTROM -/
  levelLut : Fin 20 → Nat
  /-- VEL_CURVE, the contents of VELROM -/
  velCurve : Fin 64 → Nat
  velOffset : Int
  tgtPre : Int → Int → Int
  tgtShl : Nat
  /-- RATE_TO_INC, the contents of INCROM -/
  rateToInc : Fin 64 → Nat
  riseFloor : Int
  riseCeil : Int
  riseShift : Nat
  /-- TOPOLOGY, the contents of TOPROM: `M[c][m]` at bit `6c + m`, `CM[c]` at bit `36 + c` (42 R150) -/
  topology : Fin 32 → BitVec 42

namespace Config

/-- `LEVEL_MAX = 17 * 2^24` (R6). -/
def levelMax : Int := 285212672

/-- The stage-target floor (R6). -/
def tgtMin : Int := 16

def rateMul : Nat := 41

def rateShr : Nat := 6

/-- The quantised-rate ceiling (R6). -/
def qrateMax : Nat := 63

/-- The number the host means by the named operand `given k` (30_encoding R76): a free value, one real number per name.
The sign tests of FM.INIT are over these numbers (42 R153, R175). DESIGN CHOICE, notes/assumptions/4.md. -/
opaque hostNumber : Nat → ℝ

/-- Sample `k` of the host's upsampling of a frame-rate contour with block factor `bf` (42 R166). The document gives no
end points (91 N10): a free value. DESIGN CHOICE, notes/assumptions/15.md. -/
opaque upsampled (contour : List NUM) (bf k : Nat) : NUM

/-- The frequency the host presents for the reserved silence pitch (42 R165): not in source (91 N11), a free value. -/
opaque silenceHz : NUM

/-- The frequency of a MIDI note other than 69, the one the document gives (42 R167): host software (91 N20), a free
value. -/
opaque otherNoteHz : Nat → NUM

end Config

end Sys2Proof
end

