-- ==== Sys2Proof/Machine/Flags.lean ====
section
/-! DEFINITION. The integer laws (41_log_arith R120, 00_scope R11) and the one flag of the block (10_state R28, R29).
Every integer expression is evaluated in the mathematical integers, and a command raises `OVERFLOW` where a
sub-expression leaves the signed 32-bit range: so each formula comes with the list of its sub-expressions. -/

namespace Sys2Proof.Machine

/-- `a >> n = floor(a / 2^n)`, for negative `a` too (00_scope R11). -/
def shr (a : Int) (n : Nat) : Int := a / 2 ^ n

/-- `a << n = a * 2^n`, for negative `a` too (00_scope R11). -/
def shl (a : Int) (n : Nat) : Int := a * 2 ^ n

/-- The signed 32-bit range `[-2^31, 2^31 - 1]` (41 R120). -/
def fitsS32 (x : Int) : Bool := decide (-2147483648 ≤ x) && decide (x ≤ 2147483647)

/-- No sub-expression leaves the signed 32-bit range (41 R120, 60_exceptions R187). -/
def allFit (xs : List Int) : Bool := xs.all fitsS32

/-- The s32 word of an integer that fits. -/
def s32 (x : Int) : S32 := BitVec.ofInt 32 x

/-- `RISING <- (TGT > CUR)`, strictly (10_state R28, 40 R93). -/
def risingFlag (tgt cur : Int) : Bool := decide (cur < tgt)

end Sys2Proof.Machine
end

