-- ==== Sys2Proof/Machine/LevelFns.lean ====
section
/-! DEFINITION. The functions of the LA unit (41_log_arith R122 to R129), over any configuration. The same functions serve
`ADVANCE` (40 R93). `…Parts` lists the sub-expressions of a formula, for the overflow law R120. -/

namespace Sys2Proof.Machine

/-- SCALEOL (R122): `LUTROM[l]` for `l <= 19`, else `28 + l`. -/
def scaleol (c : Cfg) (l : Nat) : Int := if h : l < 20 then (c.levelLut ⟨l, h⟩ : Int) else 28 + (l : Int)

def scaleolParts (c : Cfg) (l : Nat) : List Int := [scaleol c l]

/-- `vc`, the velocity clamped to 0..127 (R123). -/
def clampVelocity (v : Int) : Int := min (max v 0) 127

/-- The VELROM index `vc >> 1` (R123, 20_memory R55). -/
def velIndex (v : Int) : Fin 64 := ⟨(clampVelocity v).toNat / 2, by unfold clampVelocity; omega⟩

/-- `x = VELROM[vc >> 1] - VEL_OFFSET`, which may be negative (R123). -/
def velDelta (c : Cfg) (v : Int) : Int := (c.velCurve (velIndex v) : Int) - c.velOffset

/-- SCALEVEL (R123). -/
def scalevel (c : Cfg) (v : Int) (s : Nat) : Int := shl (shr ((s : Int) * velDelta c v + 7) 3) 4

def scalevelParts (c : Cfg) (v : Int) (s : Nat) : List Int :=
  [(c.velCurve (velIndex v) : Int), c.velOffset, velDelta c v, (s : Int) * velDelta c v,
   (s : Int) * velDelta c v + 7, shr ((s : Int) * velDelta c v + 7) 3, scalevel c v s]

/-- OLBIAS (R124). -/
def olbias (c : Cfg) (ol : Nat) (v : Int) (s : Nat) : Int := max 0 (shl (scaleol c ol) 5 + scalevel c v s)

def olbiasParts (c : Cfg) (ol : Nat) (v : Int) (s : Nat) : List Int :=
  scaleolParts c ol ++ scalevelParts c v s ++
    [shl (scaleol c ol) 5, shl (scaleol c ol) 5 + scalevel c v s, olbias c ol v s]

/-- `OLBIAS_MAX` (10_state R25): the largest value `LA.OLBIAS` returns. -/
def olbiasMax (c : Cfg) : Int :=
  shl 127 5 + max 0 (shl (shr (7 * ((c.velCurve 63 : Int) - c.velOffset) + 7) 3) 4)

/-- QRATE (R125). -/
def qrate (r : Nat) : Nat := min (r * Config.rateMul / 2 ^ Config.rateShr) Config.qrateMax

def qrateParts (r : Nat) : List Int := [((r * Config.rateMul : Nat) : Int), (qrate r : Int)]

/-- RATEINC (R126): `INCROM[q]`, `q` in 0..63. -/
def rateinc (c : Cfg) (q : Nat) : Int := (c.rateToInc ⟨min q 63, by omega⟩ : Int)

def rateincParts (c : Cfg) (q : Nat) : List Int := [rateinc c q]

/-- The stage target before its final shift, floored at `TGT_MIN` (R127). -/
def targetFloored (c : Cfg) (l b : Nat) : Int := max Config.tgtMin (c.tgtPre (scaleol c l) (b : Int))

/-- TARGET (R127). -/
def target (c : Cfg) (l b : Nat) : Int := shl (targetFloored c l b) c.tgtShl

def targetParts (c : Cfg) (l b : Nat) : List Int :=
  scaleolParts c l ++ [c.tgtPre (scaleol c l) (b : Int), targetFloored c l b, target c l b]

/-- GAIN (R128), by the document's first formula, `2^(10 + level/2^24) / 2^24` (notes/assumptions/17.md). -/
def gain (level : S32) : NUM :=
  .div (.exp2 (.add (.int 10) (.div (.int level.toInt) (.int 16777216)))) (.int 16777216)

/-- `base`: 0.5 for coarse 0, else coarse (R129). -/
def ratioBase (c : BitVec 8) : NUM := if c = 0 then .div (.int 1) (.int 2) else .int (c.toNat : Int)

/-- RATIO (R129): `(base + (base / 100) * fn) * exp2((t - 24) / 12)`. -/
def ratio (c fn t : BitVec 8) : NUM :=
  .mul (.add (ratioBase c) (.mul (.div (ratioBase c) (.int 100)) (.int (fn.toNat : Int))))
    (.exp2 (.div (.int ((t.toNat : Int) - 24)) (.int 12)))

/-! The topology ROM (42 R150, R152). -/

/-- `M[c][m]` of a topology entry: modulator index `m` modulates carrier index `c` (42 R150). -/
def modulates (top : BitVec 42) (c m : Fin 6) : Bool := top.getLsbD (6 * c.val + m.val)

/-- `CM[c]` of a topology entry (42 R150). -/
def isCarrier (top : BitVec 42) (c : Fin 6) : Bool := top.getLsbD (36 + c.val)

def indices : List (Fin 6) := [0, 1, 2, 3, 4, 5]

/-- The carrier indices, ascending (42 R158). -/
def carriers (top : BitVec 42) : List (Fin 6) := indices.filter (isCarrier top)

/-- NC, the number of carrier operators (42 R150). -/
def carrierCount (top : BitVec 42) : Nat := (carriers top).length

/-- A well-formed entry: modulation strictly from a higher to a lower index, and at least one carrier (42 R152). -/
def topologyOk (top : BitVec 42) : Bool :=
  (indices.all fun c => indices.all fun m => !modulates top c m || decide (c < m)) && decide (1 ≤ carrierCount top)

end Sys2Proof.Machine
end

