-- ==== Sys2Proof/Config/Chosen.lean ====
section
/-! DEFINITION. Well-formedness of the configuration (00_scope R8), the reference configuration CFG_REF (93 G1 to G9,
unaudited: used in tests and as the witness that R8 can be met, in no meaning), and the configuration of the machine:
any well-formed one, and nothing more is known of it. DESIGN CHOICE, notes/assumptions/1.md and 2.md. -/

namespace Sys2Proof

open Sys2Proof.Machine in
/-- Well-formedness of CFG (00_scope R8, with the ranges of R7). -/
structure Cfg.WellFormed (c : Cfg) : Prop where
  /-- R8 (a) -/
  lutMono : ∀ i j : Fin 20, i ≤ j → c.levelLut i ≤ c.levelLut j
  lutTop : c.levelLut 19 ≤ 48
  /-- R8 (b) -/
  velMono : ∀ i j : Fin 64, i ≤ j → c.velCurve i ≤ c.velCurve j
  /-- R8 (c) -/
  incPos : ∀ q : Fin 64, 1 ≤ c.rateToInc q
  incMono : ∀ i j : Fin 64, i ≤ j → c.rateToInc i ≤ c.rateToInc j
  /-- R8 (d) -/
  floorNonneg : 0 ≤ c.riseFloor
  floorBelowCeil : c.riseFloor < c.riseCeil
  ceilBound : c.riseCeil ≤ Config.levelMax
  /-- R8 (e) -/
  targetRange : ∀ l b : Nat, l ≤ 99 → (b : Int) ≤ olbiasMax c →
    0 < target c l b ∧ target c l b ≤ c.riseCeil - 2 ^ c.riseShift
  /-- R8 (f): the rising intermediate of 40 R97 fits s32 in every state that keeps the invariant 10_state R24;
  DESIGN CHOICE, notes/assumptions/2.md. The falling one always fits, since `CUR` and `INC` are s32 and not negative. -/
  riseFits : ∀ l b q : Nat, ∀ cur : Int, l ≤ 99 → (b : Int) ≤ olbiasMax c → 0 ≤ cur → cur ≤ target c l b →
    max cur c.riseFloor + shr (c.riseCeil - max cur c.riseFloor) c.riseShift * rateinc c q ≤ 2147483647
  /-- R8 (g) -/
  topologies : ∀ a : Fin 32, topologyOk (c.topology a) = true
  /-- 42_fm_core R151, R162: the one entry the document gives, id 31: no modulation, six carriers -/
  lastTopology : c.topology 31 = 0x3F000000000
  /-- R7: shift counts -/
  tgtShlRange : c.tgtShl ≤ 24
  riseShiftRange : c.riseShift ≤ 31
  /-- 20_memory R51: an INCROM entry is an s32 -/
  incFits : ∀ q : Fin 64, c.rateToInc q ≤ 2147483647
  /-- 41 R120: `s * x` in SCALEVEL has magnitude at most `7 * 255`; 20_memory R51: a VELROM entry is a u8 -/
  velDelta : ∀ i : Fin 64, -255 ≤ (c.velCurve i : Int) - c.velOffset ∧ (c.velCurve i : Int) - c.velOffset ≤ 255
  velWidth : ∀ i : Fin 64, c.velCurve i ≤ 255
  /-- 60_exceptions R180, 92 D16: no overflow under a well-formed CFG, so TGT_PRE answers an s32 -/
  tgtPreFits : ∀ l b : Nat, l ≤ 99 → (b : Int) ≤ olbiasMax c → fitsS32 (c.tgtPre (scaleol c l) (b : Int)) = true

namespace Config

/-- G1 -/
def refLut : List Nat := [0, 5, 9, 13, 17, 20, 23, 25, 27, 29, 31, 33, 35, 37, 39, 41, 42, 43, 45, 46]

/-- G2 -/
def refVel : List Nat :=
  [0, 70, 86, 97, 106, 114, 121, 126, 132, 138, 142, 148, 152, 156, 160, 163] ++
  [166, 170, 173, 174, 178, 181, 184, 186, 189, 190, 194, 196, 198, 200, 202, 205] ++
  [206, 209, 211, 214, 216, 218, 220, 222, 224, 225, 227, 229, 230, 232, 233, 235] ++
  [237, 238, 240, 241, 242, 243, 244, 246, 246, 248, 249, 250, 251, 252, 253, 254]

/-- G9, the TOPROM words -/
def refTop : List (BitVec 42) :=
  [0x05020408002, 0x05020408002, 0x09020400102, 0x09020400102, 0x15020008002, 0x15020008002, 0x05020018002,
   0x05020018002] ++
  [0x05020018002, 0x09000C00102, 0x09000C00102, 0x05000038002, 0x05000038002, 0x05000C08002, 0x05000C08002,
   0x01020008016] ++
  [0x01020008016, 0x0102040000E, 0x19020800102, 0x0B000C00104, 0x1B020800104, 0x1D020820002, 0x1B020800100,
   0x1F020820000] ++
  [0x1F020800000, 0x0B000C00100, 0x0B000C00100, 0x25000408002, 0x17020008000, 0x27000408000, 0x1F020000000,
   0x3F000000000]

end Config

/-- CFG_REF (93 G1 to G9). -/
def Cfg.ref : Cfg where
  levelLut i := Config.refLut.getD i.val 0
  velCurve i := Config.refVel.getD i.val 0
  velOffset := 239
  tgtPre s b := s / 2 * 64 + b - 4256
  tgtShl := 16
  rateToInc q := (4 + q.val % 4) * 2 ^ (8 + q.val / 4)
  riseFloor := 112459776
  riseCeil := 285212672
  riseShift := 24
  topology a := Config.refTop.getD a.val 0

namespace Machine

theorem scaleol_ref_range (l : Nat) (h : l ≤ 99) : 0 ≤ scaleol Cfg.ref l ∧ scaleol Cfg.ref l ≤ 127 := by
  have table : ∀ i : Fin 20, Cfg.ref.levelLut i ≤ 127 := by decide
  unfold scaleol
  split
  · have := table ⟨l, by omega⟩
    omega
  · omega

theorem olbiasMax_ref : olbiasMax Cfg.ref = 4288 := by decide

theorem target_ref (l b : Nat) :
    target Cfg.ref l b = max 16 (scaleol Cfg.ref l / 2 * 64 + b - 4256) * 65536 := rfl

theorem rateinc_ref_le (q : Nat) : 0 ≤ rateinc Cfg.ref q ∧ rateinc Cfg.ref q ≤ 58720256 := by
  have table : ∀ i : Fin 64, Cfg.ref.rateToInc i ≤ 58720256 := by decide
  have := table ⟨min q 63, by omega⟩
  unfold rateinc
  omega

theorem riseFits_ref (c0 : Int) (inc : Int) (h0 : 112459776 ≤ c0) (h1 : c0 ≤ 266338304) (hi : 0 ≤ inc)
    (hj : inc ≤ 58720256) : c0 + (285212672 - c0) / 2 ^ 24 * inc ≤ 2147483647 := by
  have hk : (285212672 - c0) / 2 ^ 24 ≤ 10 := by omega
  have hm : (285212672 - c0) / 2 ^ 24 * inc ≤ 10 * 58720256 :=
    mul_le_mul hk hj hi (by norm_num)
  omega

end Machine

/-- CFG_REF meets every constraint (95 V40 (c)): well-formed configurations exist. -/
theorem Cfg.ref_wellFormed : Cfg.ref.WellFormed where
  lutMono := by decide
  lutTop := by decide
  velMono := by decide
  incPos := by decide
  incMono := by decide
  floorNonneg := by decide
  floorBelowCeil := by decide
  ceilBound := by decide
  targetRange l b hl hb := by
    have hs := Machine.scaleol_ref_range l hl
    rw [Machine.olbiasMax_ref] at hb
    rw [Machine.target_ref, show Cfg.ref.riseCeil - 2 ^ Cfg.ref.riseShift = 268435456 by decide]
    omega
  riseFits l b q cur hl hb h0 h1 := by
    have hs := Machine.scaleol_ref_range l hl
    have hq := Machine.rateinc_ref_le q
    rw [Machine.olbiasMax_ref] at hb
    rw [Machine.target_ref] at h1
    exact Machine.riseFits_ref (max cur 112459776) _ (le_max_right _ _) (by omega) hq.1 hq.2
  topologies := by decide
  lastTopology := by decide
  tgtShlRange := by decide
  riseShiftRange := by decide
  incFits := by decide
  velDelta := by decide
  velWidth := by decide
  tgtPreFits l b hl hb := by
    have hs := Machine.scaleol_ref_range l hl
    rw [Machine.olbiasMax_ref] at hb
    have hp : Cfg.ref.tgtPre (Machine.scaleol Cfg.ref l) b = Machine.scaleol Cfg.ref l / 2 * 64 + b - 4256 := rfl
    rw [hp, Machine.fitsS32, Bool.and_eq_true, decide_eq_true_eq, decide_eq_true_eq]
    omega

namespace Config

/-- Some well-formed configuration: a free value (00_scope R7, 92 D3). The argument only says that one exists. -/
opaque wellFormedCfg [Inhabited {c : Cfg // c.WellFormed}] : {c : Cfg // c.WellFormed}

/-- The machine's configuration, with its proof of R8. -/
def chosen : {c : Cfg // c.WellFormed} := @wellFormedCfg ⟨⟨Cfg.ref, Cfg.ref_wellFormed⟩⟩

/-- The configuration of the machine. A configuration that fails R8 is refused: it is none of these. -/
def cfg : Cfg := chosen.1

theorem cfg_wellFormed : cfg.WellFormed := chosen.2

end Config

end Sys2Proof
end

