-- ==== Sys2Proof/Machine/Numerics.lean ====
section
/-! DEFINITION. What a NUM expression stands for. A numerics record gives the number type and its operations (00_scope R7,
92 D14); with the reals the rules of FM, LA.GAIN and LA.RATIO are exact (00_scope R12, 42_fm_core R175). The step function
builds expressions and computes no number; what it needs of one is the sign of a sample rate and of a ratio (42 R153), which
an operand brings with its value (`NumOperand`, Syntax.lean). -/

namespace Sys2Proof.Machine

/-- The numerics record NUM (00_scope R7). -/
structure Numerics (α : Type) where
  int : Int → α
  twoPi : α
  add : α → α → α
  mul : α → α → α
  div : α → α → α
  sin : α → α
  exp2 : α → α
  wrap : α → α

/-- The value of an expression in a numerics record; `env` says which numbers the host's named operands are. -/
def evalNum {α : Type} (N : Numerics α) (env : Nat → α) : NUM → α
  | .int n => N.int n
  | .given k => env k
  | .twoPi => N.twoPi
  | .add x y => N.add (evalNum N env x) (evalNum N env y)
  | .mul x y => N.mul (evalNum N env x) (evalNum N env y)
  | .div x y => N.div (evalNum N env x) (evalNum N env y)
  | .sin x => N.sin (evalNum N env x)
  | .exp2 x => N.exp2 (evalNum N env x)
  | .wrap x => N.wrap (evalNum N env x)

/-- `wrap(x) = x - 2π * floor(x / (2π))` (00_scope R12). -/
noncomputable def wrapReal (x : ℝ) : ℝ := x - 2 * Real.pi * (⌊x / (2 * Real.pi)⌋ : ℝ)

/-- The reals with the mathematical `sin`, `exp2` and `π` (00_scope R12). The spec gives a quotient with divisor 0 no value;
here it is 0, as division on the reals is in Mathlib. DESIGN CHOICE, notes/assumptions/22.md. -/
noncomputable def realNumerics : Numerics ℝ where
  int n := (n : ℝ)
  twoPi := 2 * Real.pi
  add x y := x + y
  mul x y := x * y
  div x y := x / y
  sin := Real.sin
  exp2 x := (2 : ℝ) ^ x
  wrap := wrapReal

/-- The real number an expression stands for. -/
noncomputable def realValue (env : Nat → ℝ) (x : NUM) : ℝ := evalNum realNumerics env x

/-- The real number `x` has this sign. -/
def HasSign (x : ℝ) : Sign → Prop
  | .neg => x < 0
  | .zero => x = 0
  | .pos => 0 < x

/-! The sign of an expression over the reals, where its form decides it: what a host finds without a named number. -/

def intSign (n : Int) : Sign := if n < 0 then .neg else if n = 0 then .zero else .pos

theorem hasSign_intSign (n : Int) : HasSign (n : ℝ) (intSign n) := by
  unfold intSign
  split
  · exact Int.cast_lt_zero.2 (by assumption)
  · split
    · exact Int.cast_eq_zero.2 (by assumption)
    · exact Int.cast_pos.2 (by omega)

def flipSign : Sign → Sign
  | .neg => .pos
  | .zero => .zero
  | .pos => .neg

def timesSign : Sign → Sign → Sign
  | .zero, _ => .zero
  | .pos, t => t
  | .neg, t => flipSign t

/-- The value of an expression built from integers by `+`, `*`, `/` alone, as a numerator and a positive denominator. -/
def fraction : NUM → Option (Int × Nat)
  | .int n => some (n, 1)
  | .add x y =>
    match fraction x, fraction y with
    | some (a, b), some (c, d) => some (a * d + c * b, b * d)
    | _, _ => none
  | .mul x y =>
    match fraction x, fraction y with
    | some (a, b), some (c, d) => some (a * c, b * d)
    | _, _ => none
  | .div x y =>
    match fraction x, fraction y with
    | some (a, b), some (c, d) =>
      if c = 0 then none else if 0 < c then some (a * d, b * c.natAbs) else some (-(a * d), b * c.natAbs)
    | _, _ => none
  | .given _ => none
  | .twoPi => none
  | .sin _ => none
  | .exp2 _ => none
  | .wrap _ => none

/-- The sign of a sum from the signs of its terms, where they decide it. -/
def sumSign : Option Sign → Option Sign → Option Sign
  | some .zero, t => t
  | s, some .zero => s
  | some .pos, some .pos => some .pos
  | some .neg, some .neg => some .neg
  | _, _ => none

/-- The sign of a product; a factor 0 decides it whatever the other is. -/
def productSign : Option Sign → Option Sign → Option Sign
  | some .zero, _ => some .zero
  | _, some .zero => some .zero
  | some s, some t => some (timesSign s t)
  | _, _ => none

def quotientSign : Option Sign → Option Sign → Option Sign
  | some _, some .zero => none
  | some s, some t => some (timesSign s t)
  | _, _ => none

/-- The sign an expression shows over the reals; none where its form does not decide it. -/
def shownSign : NUM → Option Sign
  | .int n => some (intSign n)
  | .given _ => none
  | .twoPi => some .pos
  | .add x y =>
    match fraction (.add x y) with
    | some (a, _) => some (intSign a)
    | none => sumSign (shownSign x) (shownSign y)
  | .mul x y => productSign (shownSign x) (shownSign y)
  | .div x y => quotientSign (shownSign x) (shownSign y)
  | .sin _ => none
  | .exp2 _ => some .pos
  | .wrap _ => none

end Sys2Proof.Machine
end

