-- ==== Sys2Proof/Syntax.lean ====
section
/-! DEFINITION. The commands: one constructor per row of spec/opcode_table.json, with the typed operands of
30_encoding R76. `e` is the field OPR of the command word (R77). Operands have their port's width; the two ports whose
width excludes every bad value, `s` (u3) and `q` (u6), are carried in 8 bits, so that the range check of R76 and
60_exceptions R184 is live (90 C13). DESIGN CHOICE, notes/assumptions/10.md. -/

namespace Sys2Proof

open Machine in
/-- A NUM operand whose order the block tests (30_encoding R76: `sr > 0`, `ratio[i] >= 0`): the value and the sign of the
real number it stands for (42_fm_core R153, R175). Every expression is the value of exactly one operand; none carries a
sign that is not its own. DESIGN CHOICE, notes/assumptions/4.md; for a quotient with divisor 0, notes/assumptions/22.md. -/
structure NumOperand where
  value : NUM
  sign : Sign
  /-- the sign is that of the value over the reals, the host's named numbers being `Config.hostNumber` -/
  holds : HasSign (realValue Config.hostNumber value) sign
  deriving DecidableEq, Repr

inductive Instr where
  | egNop (e : BitVec 3)
  | egInit (e : BitVec 3) (r l : Vector (BitVec 7) 4) (b : BitVec 13)
  | egKeyoff (e : BitVec 3)
  | egKeyon (e : BitVec 3)
  | egSample (e : BitVec 3)
  | laScaleol (l : BitVec 7)
  | laScalevel (v : BitVec 16) (s : BitVec 8)
  | laOlbias (ol : BitVec 7) (v : BitVec 16) (s : BitVec 8)
  | laQrate (r : BitVec 7)
  | laRateinc (q : BitVec 8)
  | laTarget (l : BitVec 7) (b : BitVec 13)
  | laGain (level : S32)
  | laRatio (c fn t : BitVec 8)
  | fmInit (alg : BitVec 8) (sr : NumOperand) (ratio : Vector NumOperand 6) (phase0 : Vector NUM 6)
  | fmStep (f : NUM) (g : Vector NUM 6)
  deriving DecidableEq, Repr

end Sys2Proof
end

