-- ==== Sys2Proof/Machine/Operands.lean ====
section
/-! DEFINITION. The operand forms (30_encoding R76): how each port is read into an expression, and the range checks, each
true where the operand is OUT of its range (60_exceptions R184, R185). -/

namespace Sys2Proof.Machine

/-- `e` selects no instance: `OPR` 6 or 7 (30 R71). -/
def badInstance (e : BitVec 3) : Bool := decide (5 < e.toNat)

/-- A rate, a stage level or an output level above 99 (60 R184). -/
def badPercent (x : BitVec 7) : Bool := decide (99 < x.toNat)

def stages : List (Fin 4) := [0, 1, 2, 3]

/-- Some of `r0..r3` or `l0..l3` above 99. -/
def badStageValues (xs : Vector (BitVec 7) 4) : Bool := stages.any fun i => badPercent xs[i]

/-- A bias above OLBIAS_MAX (10 R25). -/
def badBias (c : Cfg) (b : BitVec 13) : Bool := decide (olbiasMax c < (b.toNat : Int))

/-- A sensitivity above 7. -/
def badSensitivity (s : BitVec 8) : Bool := decide (7 < s.toNat)

/-- A quantised rate above 63. -/
def badQrate (q : BitVec 8) : Bool := decide (63 < q.toNat)

/-- An algorithm id outside 0..31 (60 R185). -/
def badAlgorithm (alg : BitVec 8) : Bool := decide (31 < alg.toNat)

/-- Velocity is signed and sign-extended; it is never a bad operand (30 R76, 60 R184). -/
def velocity (v : BitVec 16) : Int := v.toInt

/-- Not `sr > 0` (42 R153, 60 R184), on the operand's value. -/
def badSampleRate (sr : NumOperand) : Bool := decide (sr.sign ≠ .pos)

/-- Some `ratio[i] < 0` (42 R153, 60 R184), on the operands' values. -/
def badRatios (ratio : Vector NumOperand 6) : Bool := indices.any fun i => decide (ratio[i].sign = .neg)

end Sys2Proof.Machine
end

