-- ==== Sys2Proof/WellFormed.lean ====
section
/-! DEFINITION. When a command has a legal command word (30_encoding R71, R78): its OPR field, for an EG command,
selects one of the six instances. Operand ranges are no part of it: a command with an operand out of its range has a
legal word and raises `BAD_OPERAND` (60_exceptions R184). -/

namespace Sys2Proof

/-- `OPR` values 6 and 7 are reserved (30_encoding R71). -/
def Instr.wellFormed : Instr → Bool
  | .egNop e => e ≤ 5
  | .egInit e _ _ _ => e ≤ 5
  | .egKeyoff e => e ≤ 5
  | .egKeyon e => e ≤ 5
  | .egSample e => e ≤ 5
  | .laScaleol _ => true
  | .laScalevel _ _ => true
  | .laOlbias _ _ _ => true
  | .laQrate _ => true
  | .laRateinc _ => true
  | .laTarget _ _ => true
  | .laGain _ => true
  | .laRatio _ _ _ => true
  | .fmInit _ _ _ _ => true
  | .fmStep _ _ => true

abbrev Instr.WellFormed (i : Instr) : Prop := i.wellFormed = true

end Sys2Proof
end

