-- ==== Sys2Proof/Decode.lean ====
section
/-! DEFINITION. The command word and its operand ports (30_encoding R70 to R79), the decoder, total on all 256 words, and
the encoder. The only operand in the word is `e` (R77); every other one arrives on a port in the same cycle (R70, R76). -/

namespace Sys2Proof

/-- The rows of the opcode map (R73, R74, R75). -/
inductive Op where
  | egNop
  | egInit
  | egKeyoff
  | egKeyon
  | egSample
  | laScaleol
  | laScalevel
  | laOlbias
  | laQrate
  | laRateinc
  | laTarget
  | laGain
  | laRatio
  | fmInit
  | fmStep
  deriving DecidableEq, Repr

/-- A row of the opcode map: it selects the words `w` with `w & mask = pattern` (R72). -/
structure Row where
  op : Op
  mask : Byte
  pattern : Byte
  deriving DecidableEq, Repr

/-- R73: unit EG, `00 eee ooo`. -/
def egRows : List Row :=
  [⟨.egNop, 0xC7, 0x00⟩, ⟨.egInit, 0xC7, 0x01⟩, ⟨.egKeyoff, 0xC7, 0x02⟩, ⟨.egKeyon, 0xC7, 0x03⟩,
   ⟨.egSample, 0xC7, 0x04⟩]

/-- R74: unit LA, `01 000 ooo`. -/
def laRows : List Row :=
  [⟨.laScaleol, 0xFF, 0x40⟩, ⟨.laScalevel, 0xFF, 0x41⟩, ⟨.laOlbias, 0xFF, 0x42⟩, ⟨.laQrate, 0xFF, 0x43⟩,
   ⟨.laRateinc, 0xFF, 0x44⟩, ⟨.laTarget, 0xFF, 0x45⟩, ⟨.laGain, 0xFF, 0x46⟩, ⟨.laRatio, 0xFF, 0x47⟩]

/-- R75: unit FM, `10 000 ooo`. -/
def fmRows : List Row := [⟨.fmInit, 0xFF, 0x81⟩, ⟨.fmStep, 0xFF, 0x84⟩]

def opcodeTable : List Row := egRows ++ laRows ++ fmRows

def Row.selects (r : Row) (w : Byte) : Bool := w &&& r.mask == r.pattern

/-- `CW[7:6]` (R71). -/
def unitField (w : Byte) : BitVec 2 := w.extractLsb' 6 2

/-- `CW[5:3]` (R71): the instance index of an EG command (R77). -/
def oprField (w : Byte) : BitVec 3 := w.extractLsb' 3 3

/-- `CW[2:0]` (R71). -/
def opField (w : Byte) : BitVec 3 := w.extractLsb' 0 3

/-- The reserved words by name (R78). Every one raises `ILLEGAL_CMD` (60_exceptions R182). -/
inductive Reserved where
  /-- `UNIT = 11` -/
  | unit (w : Byte)
  /-- `UNIT = EG` with `OPR` 6 or 7 -/
  | egIndex (w : Byte)
  /-- `UNIT = LA` or `UNIT = FM` with `OPR` not 000 -/
  | opr (w : Byte)
  /-- an `OP` value the unit does not have -/
  | op (w : Byte)
  deriving DecidableEq, Repr

/-- Which reserved word `w` is, where no row selects it. -/
def reservedName (w : Byte) : Reserved :=
  if unitField w = 3 then .unit w
  else if unitField w = 0 then (if 5 < oprField w then .egIndex w else .op w)
  else if oprField w = 0 then .op w
  else .opr w

/-- The row and the instance index a command word selects, or the reserved word it is (R72, R78). -/
def decodeWord (w : Byte) : Except Reserved (Op × BitVec 3) :=
  match opcodeTable.find? (fun r => r.selects w) with
  | none => .error (reservedName w)
  | some r => if unitField w = 0 ∧ 5 < oprField w then .error (.egIndex w) else .ok (r.op, oprField w)

/-- The operand ports (R76), one field per port name. -/
structure Ports where
  /-- `r0..r3` of `EG.INIT` -/
  rates : Vector (BitVec 7) 4
  /-- `l0..l3` of `EG.INIT` -/
  levels : Vector (BitVec 7) 4
  b : BitVec 13
  l : BitVec 7
  ol : BitVec 7
  v : BitVec 16
  s : BitVec 8
  r : BitVec 7
  q : BitVec 8
  /-- `L` of `LA.GAIN` -/
  level : S32
  c : BitVec 8
  fn : BitVec 8
  t : BitVec 8
  alg : BitVec 8
  sr : NumOperand
  ratio : Vector NumOperand 6
  phase0 : Vector NUM 6
  f : NUM
  g : Vector NUM 6
  deriving DecidableEq, Repr

/-- An integer as an operand. -/
def NumOperand.int (n : Int) : NumOperand where
  value := .int n
  sign := Machine.intSign n
  holds := Machine.hasSign_intSign n

/-- Every port at zero: what a port no operand drives carries in this model (notes/assumptions/11.md). -/
def Ports.zero : Ports where
  rates := Vector.replicate 4 0
  levels := Vector.replicate 4 0
  b := 0
  l := 0
  ol := 0
  v := 0
  s := 0
  r := 0
  q := 0
  level := 0
  c := 0
  fn := 0
  t := 0
  alg := 0
  sr := .int 0
  ratio := Vector.replicate 6 (.int 0)
  phase0 := Vector.replicate 6 (.int 0)
  f := .int 0
  g := Vector.replicate 6 (.int 0)

/-- A row's command with the operands its row of R76 names. -/
def Op.command (o : Op) (e : BitVec 3) (p : Ports) : Instr :=
  match o with
  | .egNop => .egNop e
  | .egInit => .egInit e p.rates p.levels p.b
  | .egKeyoff => .egKeyoff e
  | .egKeyon => .egKeyon e
  | .egSample => .egSample e
  | .laScaleol => .laScaleol p.l
  | .laScalevel => .laScalevel p.v p.s
  | .laOlbias => .laOlbias p.ol p.v p.s
  | .laQrate => .laQrate p.r
  | .laRateinc => .laRateinc p.q
  | .laTarget => .laTarget p.l p.b
  | .laGain => .laGain p.level
  | .laRatio => .laRatio p.c p.fn p.t
  | .fmInit => .fmInit p.alg p.sr p.ratio p.phase0
  | .fmStep => .fmStep p.f p.g

/-- The decoder: a command word with its operand ports is a command, or a reserved word (R72, R78). -/
def decode (w : Byte) (p : Ports) : Except Reserved Instr :=
  match decodeWord w with
  | .ok (o, e) => .ok (o.command e p)
  | .error why => .error why

/-- The word with these three fields (R71). -/
def wordOf (unit : BitVec 2) (opr op : BitVec 3) : Byte := unit ++ opr ++ op

/-- The command word of a command, from the fields of R71 and the `OP` values of R73, R74, R75. -/
def Instr.word : Instr → Byte
  | .egNop e => wordOf 0 e 0
  | .egInit e _ _ _ => wordOf 0 e 1
  | .egKeyoff e => wordOf 0 e 2
  | .egKeyon e => wordOf 0 e 3
  | .egSample e => wordOf 0 e 4
  | .laScaleol _ => wordOf 1 0 0
  | .laScalevel _ _ => wordOf 1 0 1
  | .laOlbias _ _ _ => wordOf 1 0 2
  | .laQrate _ => wordOf 1 0 3
  | .laRateinc _ => wordOf 1 0 4
  | .laTarget _ _ => wordOf 1 0 5
  | .laGain _ => wordOf 1 0 6
  | .laRatio _ _ _ => wordOf 1 0 7
  | .fmInit _ _ _ _ => wordOf 2 0 1
  | .fmStep _ _ => wordOf 2 0 4

/-- The operand ports a command drives (R76), the others at zero. -/
def Instr.ports : Instr → Ports
  | .egNop _ => Ports.zero
  | .egInit _ r l b => { Ports.zero with rates := r, levels := l, b := b }
  | .egKeyoff _ => Ports.zero
  | .egKeyon _ => Ports.zero
  | .egSample _ => Ports.zero
  | .laScaleol l => { Ports.zero with l := l }
  | .laScalevel v s => { Ports.zero with v := v, s := s }
  | .laOlbias ol v s => { Ports.zero with ol := ol, v := v, s := s }
  | .laQrate r => { Ports.zero with r := r }
  | .laRateinc q => { Ports.zero with q := q }
  | .laTarget l b => { Ports.zero with l := l, b := b }
  | .laGain level => { Ports.zero with level := level }
  | .laRatio c fn t => { Ports.zero with c := c, fn := fn, t := t }
  | .fmInit alg sr ratio phase0 => { Ports.zero with alg := alg, sr := sr, ratio := ratio, phase0 := phase0 }
  | .fmStep f g => { Ports.zero with f := f, g := g }

/-- The encoder: the command word and the operand ports. -/
def encode (i : Instr) : Byte × Ports := (i.word, i.ports)

/-- The word an opcode-table number stands for: its low `nbits` bits, in the one byte a command word is. -/
def tableWord (nbits w : Nat) : Byte := BitVec.ofNat 8 (w % 2 ^ nbits)

/-- What the decoder reads from the opcode table's `w`, every operand port at zero. -/
def decodeTableWord (nbits w : Nat) : Option Instr :=
  match decode (tableWord nbits w) Ports.zero with
  | .ok i => some i
  | .error _ => none

/-! The pseudo-commands (R81), as lists of commands. -/

/-- `EG.KEY e, d`: the document's `keyDown(d)`. -/
def keyCommand (e : BitVec 3) (d : Bool) : List Instr := [if d then .egKeyon e else .egKeyoff e]

/-- `REPEAT n (cs)`. -/
def repeatCommands (n : Nat) (cs : List Instr) : List Instr := (List.replicate n cs).flatten

/-- `EG.NOTE e, on, off`. -/
def noteCommands (e : BitVec 3) (on off : Nat) : List Instr :=
  keyCommand e true ++ repeatCommands on [.egSample e] ++ keyCommand e false ++ repeatCommands off [.egSample e]

end Sys2Proof
end

