-- ==== Sys2Proof/Machine/State.lean ====
section
/-! DEFINITION. The state of the block (10_state R20), the two lists that hold what crosses its boundary (20_memory R59),
the state after reset (10 R38, R39), and the reasons a step could stop. -/

namespace Sys2Proof.Machine

/-- The cause held in FAULT: exactly the seven values of 60_exceptions R180 (93 U4). -/
inductive Cause where
  | none
  | illegalCmd
  | badOperand
  | uninit
  | algRange
  | topology
  | overflow
  deriving DecidableEq, Repr

/-- One envelope instance EG[e] (10 R22 to R30). -/
structure EgInst where
  /-- ERATE[0..3], the raw rates -/
  erate : Vector (BitVec 7) 4
  /-- ELVL[0..3], the raw levels -/
  elvl : Vector (BitVec 7) 4
  olbias : BitVec 13
  cur : S32
  tgt : S32
  inc : S32
  stage : BitVec 2
  keydown : Bool
  rising : Bool
  valid : Bool
  deriving DecidableEq, Repr

/-- The FM core (10 R30, R32, R33). -/
structure FmCore where
  valid : Bool
  alg : BitVec 5
  sr : NUM
  ratio : Vector NUM 6
  phase : Vector NUM 6
  deriving DecidableEq, Repr

/-- One result a command has driven (10 R35, 20 R59). -/
inductive Result where
  /-- LEVEL_OUT, driven by `EG.SAMPLE e` -/
  | levelOut (e : BitVec 3) (level : S32)
  /-- Q, driven by the integer LA commands -/
  | q (value : S32)
  /-- QF, driven by `LA.GAIN` and `LA.RATIO` -/
  | qf (value : NUM)
  /-- Y_RAW and Y, driven by `FM.STEP` -/
  | audio (yRaw y : NUM)
  deriving DecidableEq, Repr

/-- What the host does to the block next: a command word with its operand ports (30 R70), or the input `rst`
(10 R38, 70 R200). -/
inductive Input where
  | command (word : Byte) (ports : Ports)
  | reset
  deriving DecidableEq, Repr

/-- The state of the block (10 R20) with the host's command stream still to come (20 R59 (e)) and the result streams
produced so far, newest first (20 R59 (a), (d), 70 R214). -/
structure State where
  /-- EG[0..5] -/
  eg : Vector EgInst 6
  fm : FmCore
  /-- FAULT (10 R31) -/
  fault : Cause
  /-- FINFO (10 R31) -/
  finfo : Byte
  pending : List Input
  results : List Result
  deriving DecidableEq, Repr

/-- Why a step stops the machine: never. Every command word has an effect in this spec (30 R78: no encoding is left
undefined), a fault of the block is a next state (60 R181), and an empty command stream leaves it idle (60 R197). So
this type has no constructor. Safe: no behaviour of the block is cut off by a stop. -/
inductive Fault where
  deriving DecidableEq, Repr

/-- Why a command has no meaning. -/
inductive Refusal where
  /-- Raised by an arm of `exec` whose instruction has no meaning yet: none in this model. Safe. -/
  | notModelled (mnemonic : String)
  deriving DecidableEq, Repr

/-- An instance after block reset: VALID is 0 and no other register holds a value (10 R38, R39). The zeros are the
model's. DESIGN CHOICE, notes/assumptions/5.md. -/
def EgInst.reset : EgInst where
  erate := Vector.replicate 4 0
  elvl := Vector.replicate 4 0
  olbias := 0
  cur := 0
  tgt := 0
  inc := 0
  stage := 0
  keydown := false
  rising := false
  valid := false

/-- The FM core after block reset (10 R38, R39). DESIGN CHOICE for all but VALID, notes/assumptions/5.md. -/
def FmCore.reset : FmCore where
  valid := false
  alg := 0
  sr := .int 0
  ratio := Vector.replicate 6 (.int 0)
  phase := Vector.replicate 6 (.int 0)

/-- The block right after reset (10 R38): VALID bits 0, FAULT 0, no command presented, no result driven. FINFO has no
value: DESIGN CHOICE 0, notes/assumptions/6.md. -/
def State.reset : State where
  eg := Vector.replicate 6 EgInst.reset
  fm := FmCore.reset
  fault := .none
  finfo := 0
  pending := []
  results := []

end Sys2Proof.Machine
end

