-- ==== Sys2Proof/Machine/Ops.lean ====
section
/-! DEFINITION. The named operations over the state: reading and writing an instance, driving a result port, taking a fault
(60_exceptions R181), the one order of checks every command goes through (R188), reset (10_state R38), and taking the next
input of the host (20_memory R59, R60). There is no return from a fault: only reset clears FAULT (60 R189). -/

namespace Sys2Proof.Machine

/-- The code of a cause in the 4-bit register FAULT (60 R180). -/
def Cause.code : Cause → BitVec 4
  | .none => 0
  | .illegalCmd => 1
  | .badOperand => 2
  | .uninit => 3
  | .algRange => 4
  | .topology => 5
  | .overflow => 6

/-- EG[e]. `e` 6 and 7 select no instance: a command with one is refused before it reads (60 R188). -/
def State.getEg (s : State) (e : BitVec 3) : EgInst := s.eg[e.toNat]?.getD EgInst.reset

/-- Writes EG[e]. -/
def State.setEg (s : State) (e : BitVec 3) (g : EgInst) : State := { s with eg := s.eg.setIfInBounds e.toNat g }

/-- Writes the FM core. -/
def State.setFm (s : State) (fm : FmCore) : State := { s with fm := fm }

/-- Drives a result port: one more item of its stream (20 R59). -/
def State.drive (s : State) (r : Result) : State := { s with results := r :: s.results }

/-- `raise <cause>` (60 R181): FAULT and FINFO, nothing else. -/
def raise (k : Cause) (cw : Byte) (s : State) : State := { s with fault := k, finfo := cw }

/-- The first check that fails, in the order given (60 R188). -/
def firstFailing : List (Bool × Cause) → Option Cause
  | [] => none
  | (bad, k) :: rest => if bad then some k else firstFailing rest

/-- One command with command word `cw` (60 R188): ignored while FAULT is not 0; then the checks in order; then the
effect, which is absent where a sub-expression overflows (41 R120). It either takes effect or faults and writes nothing
but the fault registers (00_scope R14). -/
def execute (cw : Byte) (checks : List (Bool × Cause)) (effect : Option State) (s : State) : State :=
  if s.fault = .none then
    match firstFailing checks with
    | some k => raise k cw s
    | none =>
      match effect with
      | some t => t
      | none => raise .overflow cw s
  else s

/-- A reserved command word (30 R78, 60 R182): `ILLEGAL_CMD`, unless the block is faulted and ignores it. -/
def reservedCommand (cw : Byte) (s : State) : State := execute cw [(true, .illegalCmd)] none s

/-- Block reset (10 R38): every register as after reset, no port holds a value; the host's stream goes on. -/
def State.blockReset (s : State) : State := { State.reset with pending := s.pending }

/-- The next input of the host and the state without it (20 R60: in the order the host issues them). -/
def State.takeInput (s : State) : Option (Input × State) :=
  match s.pending with
  | [] => none
  | i :: rest => some (i, { s with pending := rest })

/-- The host presents an input before those already in the stream. -/
def State.present (s : State) (i : Input) : State := { s with pending := i :: s.pending }

/-! The ports the host reads (10 R31, R35): views of the state, none where a port holds no value. -/

/-- FAULT_OUT. -/
def State.faultOut (s : State) : BitVec 4 := s.fault.code

/-- FINFO_OUT: no value while no fault has been raised (60 R180). -/
def State.finfoOut (s : State) : Option Byte := if s.fault = .none then none else some s.finfo

/-- LEVEL_OUT: one shared port, the latest sample (95 P5). -/
def State.levelOut (s : State) : Option S32 :=
  s.results.findSome? fun r => match r with
    | .levelOut _ level => some level
    | _ => none

/-- Q. -/
def State.qOut (s : State) : Option S32 :=
  s.results.findSome? fun r => match r with
    | .q value => some value
    | _ => none

/-- QF. -/
def State.qfOut (s : State) : Option NUM :=
  s.results.findSome? fun r => match r with
    | .qf value => some value
    | _ => none

/-- Y_RAW and Y. -/
def State.audioOut (s : State) : Option (NUM × NUM) :=
  s.results.findSome? fun r => match r with
    | .audio yRaw y => some (yRaw, y)
    | _ => none

/-- The level an item shows of instance `e`. -/
def Result.levelFor (e : BitVec 3) : Result → Option S32
  | .levelOut e' level => if e' = e then some level else none
  | .q _ => none
  | .qf _ => none
  | .audio _ _ => none

/-- The Y an item shows. -/
def Result.sample : Result → Option NUM
  | .levelOut _ _ => none
  | .q _ => none
  | .qf _ => none
  | .audio _ y => some y

/-- The level stream of one instance, oldest first (20 R59 (a), R65). -/
def State.levelStream (s : State) (e : BitVec 3) : List S32 := (s.results.filterMap (Result.levelFor e)).reverse

/-- The audio stream Y, oldest first (20 R59 (d)). -/
def State.audioStream (s : State) : List NUM := (s.results.filterMap Result.sample).reverse

end Sys2Proof.Machine
end

