-- ==== Sys2Proof/Machine/Eg.lean ====
section
/-! DEFINITION. The EG unit (40_eg_commands R90 to R110). Each command is written over any configuration `c` (00_scope R7:
a model takes CFG as an argument), as the state after it; its meaning `exec…` is that at the machine's configuration. -/

namespace Sys2Proof.Machine

/-- STAGE as an index into ERATE and ELVL (10_state R26). -/
def stageIndex (g : EgInst) : Fin 4 := g.stage.toFin

/-- The sub-expressions of `ADVANCE` at stage `n` (R93): those of TARGET, QRATE and RATEINC. -/
def advanceParts (c : Cfg) (g : EgInst) (n : Fin 4) : List Int :=
  targetParts c g.elvl[n].toNat g.olbias.toNat ++ qrateParts g.erate[n].toNat ++ rateincParts c (qrate g.erate[n].toNat)

/-- The stage target and increment of stage `n`, and RISING from the new target and the level of this moment (R93). -/
def loadStage (c : Cfg) (g : EgInst) (n : Fin 4) : EgInst :=
  { g with
    stage := BitVec.ofFin n
    tgt := s32 (target c g.elvl[n].toNat g.olbias.toNat)
    rising := risingFlag (target c g.elvl[n].toNat g.olbias.toNat) g.cur.toInt
    inc := s32 (rateinc c (qrate g.erate[n].toNat)) }

/-- `ADVANCE(e, n)` (R93), none where a sub-expression overflows (notes/assumptions/19.md). `n = 4` writes nothing
(R100). -/
def advance (c : Cfg) (g : EgInst) (n : Nat) : Option EgInst :=
  if h : n < 4 then
    if allFit (advanceParts c g ⟨n, h⟩) then some (loadStage c g ⟨n, h⟩) else none
  else some g

/-- The level reaches the target: it is clamped to it and the stage advances (R97, R98, R100). -/
def land (c : Cfg) (g : EgInst) : Option EgInst := advance c { g with cur := g.tgt } (g.stage.toNat + 1)

/-- `c0` of the rising update: the level, at least RISE_FLOOR (R97). -/
def riseFrom (c : Cfg) (g : EgInst) : Int := max g.cur.toInt c.riseFloor

/-- `c1` of the rising update (R97). -/
def riseTo (c : Cfg) (g : EgInst) : Int :=
  riseFrom c g + shr (c.riseCeil - riseFrom c g) c.riseShift * g.inc.toInt

def riseParts (c : Cfg) (g : EgInst) : List Int :=
  [riseFrom c g, c.riseCeil - riseFrom c g, shr (c.riseCeil - riseFrom c g) c.riseShift,
   shr (c.riseCeil - riseFrom c g) c.riseShift * g.inc.toInt, riseTo c g]

/-- Rising update (R97). -/
def rise (c : Cfg) (g : EgInst) : Option EgInst :=
  if allFit (riseParts c g) then
    if g.tgt.toInt ≤ riseTo c g then land c g else some { g with cur := s32 (riseTo c g) }
  else none

/-- `c1` of the falling update (R98). -/
def fallTo (g : EgInst) : Int := g.cur.toInt - g.inc.toInt

/-- Falling update (R98). -/
def fall (c : Cfg) (g : EgInst) : Option EgInst :=
  if allFit [fallTo g] then
    if fallTo g ≤ g.tgt.toInt then land c g else some { g with cur := s32 (fallTo g) }
  else none

/-- Stages 0, 1, 2 always move, stage 3 only while the key is up (R96). -/
def active (g : EgInst) : Bool := decide (g.stage.toNat ≤ 2) || (decide (g.stage.toNat = 3) && !g.keydown)

/-- The update of one sample (R96); an instance that is not active holds (R99). -/
def sampleUpdate (c : Cfg) (g : EgInst) : Option EgInst :=
  if active g then (if g.rising then rise c g else fall c g) else some g

/-- The registers `EG.INIT` loads before it advances to stage 0 (R92). -/
def loaded (g : EgInst) (r l : Vector (BitVec 7) 4) (b : BitVec 13) : EgInst :=
  { g with erate := r, elvl := l, olbias := b, cur := 0, keydown := true }

/-- `EG.NOP e` (R91). -/
def egNop (e : BitVec 3) (s : State) : State :=
  execute (Instr.word (.egNop e)) [(badInstance e, .illegalCmd)] (some s) s

/-- `EG.INIT e, r0..r3, l0..l3, b` (R92). -/
def egInit (c : Cfg) (e : BitVec 3) (r l : Vector (BitVec 7) 4) (b : BitVec 13) (s : State) : State :=
  execute (Instr.word (.egInit e r l b))
    [(badInstance e, .illegalCmd), (badStageValues r, .badOperand), (badStageValues l, .badOperand),
     (badBias c b, .badOperand)]
    ((advance c (loaded (s.getEg e) r l b) 0).map fun g => s.setEg e { g with valid := true }) s

/-- `EG.KEYOFF e` (R95). -/
def egKeyoff (c : Cfg) (e : BitVec 3) (s : State) : State :=
  execute (Instr.word (.egKeyoff e)) [(badInstance e, .illegalCmd), (!(s.getEg e).valid, .uninit)]
    ((advance c { s.getEg e with keydown := false } 3).map (s.setEg e)) s

/-- `EG.KEYON e` (R94), unconditional. -/
def egKeyon (c : Cfg) (e : BitVec 3) (s : State) : State :=
  execute (Instr.word (.egKeyon e)) [(badInstance e, .illegalCmd), (!(s.getEg e).valid, .uninit)]
    ((advance c { s.getEg e with keydown := true } 0).map (s.setEg e)) s

/-- `EG.SAMPLE e` (R96): LEVEL_OUT is the level after the update. -/
def egSample (c : Cfg) (e : BitVec 3) (s : State) : State :=
  execute (Instr.word (.egSample e)) [(badInstance e, .illegalCmd), (!(s.getEg e).valid, .uninit)]
    ((sampleUpdate c (s.getEg e)).map fun g => (s.setEg e g).drive (.levelOut e g.cur)) s

def execEgNop (e : BitVec 3) (s : State) : Host.Outcome State Fault Refusal := .next (egNop e s)

def execEgInit (e : BitVec 3) (r l : Vector (BitVec 7) 4) (b : BitVec 13) (s : State) :
    Host.Outcome State Fault Refusal := .next (egInit Config.cfg e r l b s)

def execEgKeyoff (e : BitVec 3) (s : State) : Host.Outcome State Fault Refusal := .next (egKeyoff Config.cfg e s)

def execEgKeyon (e : BitVec 3) (s : State) : Host.Outcome State Fault Refusal := .next (egKeyon Config.cfg e s)

def execEgSample (e : BitVec 3) (s : State) : Host.Outcome State Fault Refusal := .next (egSample Config.cfg e s)

end Sys2Proof.Machine
end

