-- ==== Sys2Proof/Machine/Fm.lean ====
section
/-! DEFINITION. The FM unit (42_fm_core R150 to R175). NUM expressions are built operation by operation in the order rule
R154 writes them (R175). Written over any configuration, as in Machine/Eg.lean. -/

namespace Sys2Proof.Machine

/-- The topology entry an 8-bit algorithm operand selects once it is known to be in 0..31 (R153). -/
def selected (c : Cfg) (alg : BitVec 5) : BitVec 42 := c.topology ⟨alg.toNat, alg.isLt⟩

/-- Step 1 (R155): every phase advances and is wrapped. -/
def advancedPhases (fm : FmCore) (f : NUM) : Vector NUM 6 :=
  Vector.ofFn fun i =>
    .wrap (.add fm.phase[i] (.mul (.mul (.mul .twoPi (.div (.int 1) fm.sr)) f) fm.ratio[i]))

/-- One modulation of carrier `c` by modulator `m` over the working buffer, if the topology has it (R157). -/
def modulateOne (top : BitVec 42) (g : Vector NUM 6) (m : Fin 6) (w : Vector NUM 6) (c : Fin 6) : Vector NUM 6 :=
  if modulates top c m then w.set c.val (.add w[c] (.mul (.mul g[m] (.sin w[m])) .twoPi)) else w

/-- One modulator's pass over the carriers, ascending (R157). -/
def modulateAll (top : BitVec 42) (g : Vector NUM 6) (w : Vector NUM 6) (m : Fin 6) : Vector NUM 6 :=
  indices.foldl (modulateOne top g m) w

/-- Step 3 (R157): modulators from the highest index to the lowest, over one buffer updated in place. -/
def modulationPass (top : BitVec 42) (g : Vector NUM 6) (w : Vector NUM 6) : Vector NUM 6 :=
  indices.reverse.foldl (modulateAll top g) w

/-- `g[c] * sin(WPH[c])` (R158). -/
def carrierTerm (g w : Vector NUM 6) (c : Fin 6) : NUM := .mul g[c] (.sin w[c])

/-- A sum in ascending order, its first term as it stands (R158, notes/assumptions/13.md). -/
def sumOf : List NUM → NUM
  | [] => .int 0
  | x :: xs => xs.foldl .add x

/-- Step 4 (R158): Y_RAW. -/
def carrierSum (top : BitVec 42) (g w : Vector NUM 6) : NUM := sumOf ((carriers top).map (carrierTerm g w))

/-- Normalisation (R159): Y. -/
def normalised (top : BitVec 42) (yRaw : NUM) : NUM := .div yRaw (.int ((4 * carrierCount top : Nat) : Int))

/-- The audio sample of one `FM.STEP` from the advanced phases (R154, steps 2 to 4): Y_RAW. -/
def sampleRaw (top : BitVec 42) (g phases : Vector NUM 6) : NUM :=
  carrierSum top g (modulationPass top g phases)

/-- The core after `FM.INIT` (R153, 10_state R41). -/
def fmLoaded (alg : BitVec 8) (sr : NUM) (ratio phase0 : Vector NUM 6) : FmCore where
  valid := true
  alg := alg.setWidth 5
  sr := sr
  ratio := ratio
  phase := Vector.ofFn fun i => .wrap phase0[i]

/-- `FM.INIT alg, sr, ratio, phase0` (R153). -/
def fmInit (c : Cfg) (alg : BitVec 8) (sr : NumOperand) (ratio : Vector NumOperand 6) (phase0 : Vector NUM 6)
    (s : State) : State :=
  execute (Instr.word (.fmInit alg sr ratio phase0))
    [(badAlgorithm alg, .algRange), (badSampleRate sr, .badOperand), (badRatios ratio, .badOperand),
     (!topologyOk (selected c (alg.setWidth 5)), .topology)]
    (some (s.setFm (fmLoaded alg sr.value (ratio.map (·.value)) phase0))) s

/-- The state after an `FM.STEP` that takes effect (R154): the phases advanced, Y_RAW and Y driven. -/
def fmStepped (c : Cfg) (f : NUM) (g : Vector NUM 6) (s : State) : State :=
  let top := selected c s.fm.alg
  let phases := advancedPhases s.fm f
  let yRaw := sampleRaw top g phases
  (s.setFm { s.fm with phase := phases }).drive (.audio yRaw (normalised top yRaw))

/-- `FM.STEP f, g` (R154). -/
def fmStep (c : Cfg) (f : NUM) (g : Vector NUM 6) (s : State) : State :=
  execute (Instr.word (.fmStep f g)) [(!s.fm.valid, .uninit)] (some (fmStepped c f g s)) s

def execFmInit (alg : BitVec 8) (sr : NumOperand) (ratio : Vector NumOperand 6) (phase0 : Vector NUM 6) (s : State) :
    Host.Outcome State Fault Refusal := .next (fmInit Config.cfg alg sr ratio phase0 s)

def execFmStep (f : NUM) (g : Vector NUM 6) (s : State) : Host.Outcome State Fault Refusal :=
  .next (fmStep Config.cfg f g s)

end Sys2Proof.Machine
end

