-- ==== Sys2Proof/Machine/La.lean ====
section
/-! DEFINITION. The LA unit (41_log_arith R120 to R134): stateless commands that drive one result port and write no
register. Written over any configuration, as in Machine/Eg.lean. -/

namespace Sys2Proof.Machine

/-- An integer LA command's effect: Q, unless a sub-expression overflows (R120). -/
def driveQ (parts : List Int) (value : Int) (s : State) : Option State :=
  if allFit parts then some (s.drive (.q (s32 value))) else none

/-- `LA.SCALEOL l` (R122). -/
def laScaleol (c : Cfg) (l : BitVec 7) (s : State) : State :=
  execute (Instr.word (.laScaleol l)) [(badPercent l, .badOperand)]
    (driveQ (scaleolParts c l.toNat) (scaleol c l.toNat) s) s

/-- `LA.SCALEVEL v, s` (R123). -/
def laScalevel (c : Cfg) (v : BitVec 16) (sens : BitVec 8) (s : State) : State :=
  execute (Instr.word (.laScalevel v sens)) [(badSensitivity sens, .badOperand)]
    (driveQ (scalevelParts c (velocity v) sens.toNat) (scalevel c (velocity v) sens.toNat) s) s

/-- `LA.OLBIAS ol, v, s` (R124). -/
def laOlbias (c : Cfg) (ol : BitVec 7) (v : BitVec 16) (sens : BitVec 8) (s : State) : State :=
  execute (Instr.word (.laOlbias ol v sens)) [(badPercent ol, .badOperand), (badSensitivity sens, .badOperand)]
    (driveQ (olbiasParts c ol.toNat (velocity v) sens.toNat) (olbias c ol.toNat (velocity v) sens.toNat) s) s

/-- `LA.QRATE r` (R125). -/
def laQrate (r : BitVec 7) (s : State) : State :=
  execute (Instr.word (.laQrate r)) [(badPercent r, .badOperand)]
    (driveQ (qrateParts r.toNat) (qrate r.toNat : Int) s) s

/-- `LA.RATEINC q` (R126). -/
def laRateinc (c : Cfg) (q : BitVec 8) (s : State) : State :=
  execute (Instr.word (.laRateinc q)) [(badQrate q, .badOperand)]
    (driveQ (rateincParts c q.toNat) (rateinc c q.toNat) s) s

/-- `LA.TARGET l, b` (R127). -/
def laTarget (c : Cfg) (l : BitVec 7) (b : BitVec 13) (s : State) : State :=
  execute (Instr.word (.laTarget l b)) [(badPercent l, .badOperand), (badBias c b, .badOperand)]
    (driveQ (targetParts c l.toNat b.toNat) (target c l.toNat b.toNat) s) s

/-- `LA.GAIN L` (R128). -/
def laGain (level : S32) (s : State) : State :=
  execute (Instr.word (.laGain level)) [] (some (s.drive (.qf (gain level)))) s

/-- `LA.RATIO c, fn, t` (R129). -/
def laRatio (cc fn t : BitVec 8) (s : State) : State :=
  execute (Instr.word (.laRatio cc fn t)) [] (some (s.drive (.qf (ratio cc fn t)))) s

def execLaScaleol (l : BitVec 7) (s : State) : Host.Outcome State Fault Refusal := .next (laScaleol Config.cfg l s)

def execLaScalevel (v : BitVec 16) (sens : BitVec 8) (s : State) : Host.Outcome State Fault Refusal :=
  .next (laScalevel Config.cfg v sens s)

def execLaOlbias (ol : BitVec 7) (v : BitVec 16) (sens : BitVec 8) (s : State) : Host.Outcome State Fault Refusal :=
  .next (laOlbias Config.cfg ol v sens s)

def execLaQrate (r : BitVec 7) (s : State) : Host.Outcome State Fault Refusal := .next (laQrate r s)

def execLaRateinc (q : BitVec 8) (s : State) : Host.Outcome State Fault Refusal := .next (laRateinc Config.cfg q s)

def execLaTarget (l : BitVec 7) (b : BitVec 13) (s : State) : Host.Outcome State Fault Refusal :=
  .next (laTarget Config.cfg l b s)

def execLaGain (level : S32) (s : State) : Host.Outcome State Fault Refusal := .next (laGain level s)

def execLaRatio (cc fn t : BitVec 8) (s : State) : Host.Outcome State Fault Refusal := .next (laRatio cc fn t s)

end Sys2Proof.Machine
end

