-- ==== Sys2Proof/Machine/Dispatch.lean ====
section
/-! DEFINITION. One arm per command (spec/opcode_table.json). -/

namespace Sys2Proof.Machine

def exec (i : Instr) (s : State) : Host.Outcome State Fault Refusal :=
  match i with
  -- 40_eg_commands
  | .egNop e => Sys2Proof.Machine.execEgNop e s
  | .egInit e r l b => Sys2Proof.Machine.execEgInit e r l b s
  | .egKeyoff e => Sys2Proof.Machine.execEgKeyoff e s
  | .egKeyon e => Sys2Proof.Machine.execEgKeyon e s
  | .egSample e => Sys2Proof.Machine.execEgSample e s
  -- 41_log_arith
  | .laScaleol l => Sys2Proof.Machine.execLaScaleol l s
  | .laScalevel v sens => Sys2Proof.Machine.execLaScalevel v sens s
  | .laOlbias ol v sens => Sys2Proof.Machine.execLaOlbias ol v sens s
  | .laQrate r => Sys2Proof.Machine.execLaQrate r s
  | .laRateinc q => Sys2Proof.Machine.execLaRateinc q s
  | .laTarget l b => Sys2Proof.Machine.execLaTarget l b s
  | .laGain level => Sys2Proof.Machine.execLaGain level s
  | .laRatio c fn t => Sys2Proof.Machine.execLaRatio c fn t s
  -- 42_fm_core
  | .fmInit alg sr ratio phases => Sys2Proof.Machine.execFmInit alg sr ratio phases s
  | .fmStep f g => Sys2Proof.Machine.execFmStep f g s

end Sys2Proof.Machine
end

