-- ==== Sys2Proof/Machine/Step.lean ====
section
/-! DEFINITION. One step: the block takes the host's next input (00_scope R14, 20_memory R60). The block has no program
counter and no fetch (10_state R26): the host's command stream is the program (notes/assumptions/8.md). -/

namespace Sys2Proof.Machine

/-- A command word with its ports: the decoded command runs; a reserved word raises `ILLEGAL_CMD` (60 R182). -/
def runCommand (w : Byte) (p : Ports) (s : State) : Host.Outcome State Fault Refusal :=
  match decode w p with
  | .ok i => exec i s
  | .error _ => .next (reservedCommand w s)

/-- No input: the block is idle and holds its state (10 R38, 60 R197). `rst`: block reset (10 R38). A command: run it. -/
def step (s : State) : Host.Outcome State Fault Refusal :=
  match s.takeInput with
  | none => .next s
  | some (.reset, s') => .next s'.blockReset
  | some (.command w p, s') => runCommand w p s'

/-- `s` with the opcode table's word `w` as the host's next command, every operand port at zero. -/
def State.withFetchWord (s : State) (nbits w : Nat) : State := s.present (.command (tableWord nbits w) Ports.zero)

end Sys2Proof.Machine
end

