-- ==== Sys2Proof/Machine/HostGlue.lean ====
section
/-! DEFINITION. The host's side, as the spec fixes it: the command list of one note (70_reset_and_hazards R202), of a
render (70 R204), and the glue from the level stream to the contours that `FM.STEP` consumes (42_fm_core R164 to R167).
The upsampler's values, the silence frequency and every note frequency but the document's one are free values of Config
(notes/assumptions/15.md). -/

namespace Sys2Proof.Machine

/-- A command as the host presents it. -/
def Input.ofInstr (i : Instr) : Input := .command i.word i.ports

/-- The host appends commands to its stream. -/
def State.issue (s : State) (cs : List Instr) : State := { s with pending := s.pending ++ cs.map Input.ofInstr }

/-- An event of the timeline: a note of this pitch and velocity held for `onFrames` and released for `offFrames`, or a
silence (42 R162, R164, R165). R165 calls pitch value 0 never playable and gives a sounding event of it no meaning; here it is
planned as any other. DESIGN CHOICE, notes/assumptions/23.md. -/
inductive NoteEvent where
  | sounding (note : Nat) (velocity : BitVec 16) (onFrames offFrames : Nat)
  | silence (frames : Nat)
  deriving DecidableEq, Repr

/-- How many frames an event lasts. -/
def NoteEvent.frames : NoteEvent → Nat
  | .sounding _ _ onFrames offFrames => onFrames + offFrames
  | .silence frames => frames

/-- How many `EG.SAMPLE` an event costs an operator (42 R164, R165). -/
def NoteEvent.samples : NoteEvent → Nat
  | .sounding _ _ onFrames offFrames => onFrames + offFrames
  | .silence _ => 0

/-- One operator's decoded patch fields (70 R202). -/
structure Patch where
  r : Vector (BitVec 7) 4
  l : Vector (BitVec 7) 4
  ol : BitVec 7
  sens : BitVec 8
  deriving DecidableEq, Repr

/-- Steps 2 to 7 of one note on one operator (70 R202); `b` is the bias the host reads on Q after the first command, and
gives to the second (70 R203). -/
def notePlan (e : BitVec 3) (p : Patch) (v : BitVec 16) (b : BitVec 13) (onFrames offFrames : Nat) : List Instr :=
  [.laOlbias p.ol v p.sens, .egInit e p.r p.l b] ++ noteCommands e onFrames offFrames

/-- The bias the host reads on Q (41 R124: it feeds Q to `EG.INIT` as `b`). -/
def State.biasRead (s : State) : Option (BitVec 13) := s.qOut.map (·.setWidth 13)

/-- The bias of a note: what `LA.OLBIAS` answers for its velocity, on 13 bits (41 R124, 70 R203). -/
def noteBias (c : Cfg) (p : Patch) (v : BitVec 16) : BitVec 13 :=
  (s32 (olbias c p.ol.toNat (velocity v) p.sens.toNat)).setWidth 13

/-- Operator `e` over the timeline: every sounding event is one note (42 R164, 70 R202), a silence no EG command (42 R165). -/
def operatorPlan (c : Cfg) (e : BitVec 3) (p : Patch) : List NoteEvent → List Instr
  | [] => []
  | .sounding _ v onFrames offFrames :: rest =>
    notePlan e p v (noteBias c p v) onFrames offFrames ++ operatorPlan c e p rest
  | .silence _ :: rest => operatorPlan c e p rest

/-- The frame-rate gain contour of a level stream (42 R164). -/
def gainContour (levels : List S32) : List NUM := levels.map gain

/-- A silence appends zero gain (42 R165). -/
def silentContour (frames : Nat) : List NUM := List.replicate frames (.int 0)

/-- The frame-rate gain contour of one operator: the events concatenated, with no gap and in order (42 R166). `levels` is
the level stream of its instance over the timeline; each sounding event takes its own samples from it (a stream of another
length: notes/assumptions/24.md). -/
def operatorContour : List NoteEvent → List S32 → List NUM
  | [], _ => []
  | .sounding _ _ onFrames offFrames :: rest, levels =>
    gainContour (levels.take (onFrames + offFrames)) ++ operatorContour rest (levels.drop (onFrames + offFrames))
  | .silence frames :: rest, levels => silentContour frames ++ operatorContour rest levels

/-- The frequency of a MIDI note: 69 is 440 Hz, the document's only data point (42 R167). -/
def noteHz (note : Nat) : NUM := if note = 69 then .int 440 else Config.otherNoteHz note

/-- The frame-rate pitch contour: constant across an event (42 R164, R165, R167). -/
def pitchContour : List NoteEvent → List NUM
  | [] => []
  | .sounding note _ onFrames offFrames :: rest =>
    List.replicate (onFrames + offFrames) (noteHz note) ++ pitchContour rest
  | .silence frames :: rest => List.replicate frames Config.silenceHz ++ pitchContour rest

/-- Upsampling by the block factor: `F` frames become `F * BF` items (42 R166). -/
def upsample (contour : List NUM) (bf : Nat) : List NUM :=
  (List.range (contour.length * bf)).map (Config.upsampled contour bf)

/-- `FM.STEP` number `k` consumes item `k` of the pitch contour and of each gain contour (42 R166). R172 asks for complete
contours and says nothing of others; here a gain that is missing is 0. DESIGN CHOICE, notes/assumptions/24.md. -/
def stepPlan (pitch : List NUM) (gains : Vector (List NUM) 6) : List Instr :=
  (List.range pitch.length).map fun k =>
    .fmStep (pitch.getD k (.int 0)) (Vector.ofFn fun e => gains[e].getD k (.int 0))

/-- The six `LA.RATIO` of a render, one per operator, once (70 R204). -/
def ratioPlan (coarse fine : Vector (BitVec 8) 6) (t : BitVec 8) : List Instr :=
  indices.map fun i => .laRatio coarse[i] fine[i] t

theorem ratioBase_pos (env : Nat → ℝ) (c : BitVec 8) : 0 < realValue env (ratioBase c) := by
  unfold ratioBase
  split
  · show (0 : ℝ) < ((1 : Int) : ℝ) / ((2 : Int) : ℝ)
    norm_num
  · rename_i h
    have h0 : c.toNat ≠ 0 := fun hc => h (BitVec.eq_of_toNat_eq hc)
    exact Int.cast_pos.2 (by omega)

/-- Every ratio `LA.RATIO` drives is positive (41 R129). -/
theorem ratio_pos (env : Nat → ℝ) (c fn t : BitVec 8) : 0 < realValue env (ratio c fn t) := by
  have hb := ratioBase_pos env c
  have hf : (0 : ℝ) ≤ (((fn.toNat : Nat) : Int) : ℝ) := Int.cast_nonneg (Int.natCast_nonneg _)
  refine mul_pos (add_pos_of_pos_of_nonneg hb (mul_nonneg (div_nonneg hb.le ?_) hf)) (Real.rpow_pos_of_pos two_pos _)
  exact Int.cast_nonneg (by decide)

/-- What the host reads on QF after `LA.RATIO` and presents to `FM.INIT` (70 R204). -/
def ratioOperand (c fn t : BitVec 8) : NumOperand where
  value := ratio c fn t
  sign := .pos
  holds := ratio_pos Config.hostNumber c fn t

/-- A render (70 R204) once the contours and the ratios are there: `FM.INIT` with zero seeds, then one `FM.STEP` per audio
sample. -/
def renderPlan (alg : BitVec 8) (sr : NumOperand) (ratio : Vector NumOperand 6) (pitch : List NUM)
    (gains : Vector (List NUM) 6) (bf : Nat) : List Instr :=
  .fmInit alg sr ratio (Vector.replicate 6 (.int 0)) ::
    stepPlan (upsample pitch bf) (Vector.ofFn fun e => upsample gains[e] bf)

/-- The render of a timeline (42 R164 to R166, 70 R204), from the level streams of the six instances over it. -/
def timelinePlan (alg : BitVec 8) (sr : NumOperand) (coarse fine : Vector (BitVec 8) 6) (t : BitVec 8)
    (events : List NoteEvent) (levels : Vector (List S32) 6) (bf : Nat) : List Instr :=
  ratioPlan coarse fine t ++
    renderPlan alg sr (Vector.ofFn fun i => ratioOperand coarse[i] fine[i] t) (pitchContour events)
      (Vector.ofFn fun e => operatorContour events levels[e]) bf

end Sys2Proof.Machine
end

