-- ==== Sys2Proof/Safety.lean ====
section
/-! DEFINITION. The terms in which claims are stated: the invariant of the registers (10_state R22 to R28, R33), the
reserved words as 30_encoding R78 lists them, the real value of what the FM core computes (42_fm_core R155 to R160), and
the other reading of a repeated `EG.KEYON` (70 R211). -/

namespace Sys2Proof.Machine

/-- The invariant of a valid instance: the registers keep their ranges (10_state R22, R24, R25), TGT and INC are those of
the stage in force (40 R93), and the level stays on its side of the target (10_state R24, 40 R105). -/
structure EgInst.Ok (c : Cfg) (g : EgInst) : Prop where
  rates : ∀ n : Fin 4, g.erate[n].toNat ≤ 99
  levels : ∀ n : Fin 4, g.elvl[n].toNat ≤ 99
  bias : (g.olbias.toNat : Int) ≤ olbiasMax c
  curLow : 0 ≤ g.cur.toInt
  curHigh : g.cur.toInt ≤ Config.levelMax
  tgtOf : g.tgt.toInt = target c g.elvl[stageIndex g].toNat g.olbias.toNat
  incOf : g.inc.toInt = rateinc c (qrate g.erate[stageIndex g].toNat)
  below : g.rising = true → g.cur.toInt ≤ g.tgt.toInt
  above : g.rising = false → g.tgt.toInt ≤ g.cur.toInt
  /-- the key is up in stage 3 alone: KEYOFF enters it and only KEYON and INIT leave it (40 R109) -/
  released : g.keydown = false → g.stage = 3

/-- The invariant of a valid core: SR positive, ratios not negative, over the reals, phases wrapped (10_state R32, R33). -/
structure FmCore.Ok (fm : FmCore) : Prop where
  rate : 0 < realValue Config.hostNumber fm.sr
  ratios : ∀ i : Fin 6, 0 ≤ realValue Config.hostNumber fm.ratio[i]
  phases : ∀ i : Fin 6, ∃ x : NUM, fm.phase[i] = .wrap x

/-- The invariant of the block: every valid instance and a valid core keep theirs. -/
structure State.Inv (s : State) : Prop where
  eg : ∀ e : BitVec 3, e.toNat < 6 → (s.getEg e).valid = true → (s.getEg e).Ok Config.cfg
  fm : s.fm.valid = true → s.fm.Ok

/-- The reserved words, as 30_encoding R78 lists them. -/
def reservedWord (w : Byte) : Prop :=
  0xC0 ≤ w ∨ (0x30 ≤ w ∧ w ≤ 0x3F) ∨ (w ≤ 0x3F ∧ 5 ≤ (w &&& 7)) ∨ (0x48 ≤ w ∧ w ≤ 0x7F) ∨ (0x88 ≤ w ∧ w ≤ 0xBF) ∨
    w = 0x80 ∨ w = 0x82 ∨ w = 0x83 ∨ w = 0x85 ∨ w = 0x86 ∨ w = 0x87

/-- The instance a command selects, if it is an EG command (30 R77). -/
def egOf : Instr → Option (BitVec 3)
  | .egNop e => some e
  | .egInit e _ _ _ => some e
  | .egKeyoff e => some e
  | .egKeyon e => some e
  | .egSample e => some e
  | .laScaleol _ => none
  | .laScalevel _ _ => none
  | .laOlbias _ _ _ => none
  | .laQrate _ => none
  | .laRateinc _ => none
  | .laTarget _ _ => none
  | .laGain _ => none
  | .laRatio _ _ _ => none
  | .fmInit _ _ _ _ => none
  | .fmStep _ _ => none

/-- The commands that drive a result port (30 R76, last column). -/
def drivesPort : Instr → Bool
  | .egNop _ => false
  | .egInit _ _ _ _ => false
  | .egKeyoff _ => false
  | .egKeyon _ => false
  | .fmInit _ _ _ _ => false
  | .egSample _ => true
  | .laScaleol _ => true
  | .laScalevel _ _ => true
  | .laOlbias _ _ _ => true
  | .laQrate _ => true
  | .laRateinc _ => true
  | .laTarget _ _ => true
  | .laGain _ => true
  | .laRatio _ _ _ => true
  | .fmStep _ _ => true

/-- The LA commands (30 R74). -/
def isLa : Instr → Bool
  | .egNop _ => false
  | .egInit _ _ _ _ => false
  | .egKeyoff _ => false
  | .egKeyon _ => false
  | .egSample _ => false
  | .laScaleol _ => true
  | .laScalevel _ _ => true
  | .laOlbias _ _ _ => true
  | .laQrate _ => true
  | .laRateinc _ => true
  | .laTarget _ _ => true
  | .laGain _ => true
  | .laRatio _ _ _ => true
  | .fmInit _ _ _ _ => false
  | .fmStep _ _ => false

/-- An FM.STEP per item. -/
def stepCommands (items : List (NUM × Vector NUM 6)) : List Instr := items.map fun x => .fmStep x.1 x.2

/-- A list of commands, one after the other, stopping where one does not answer a next state. -/
def runAll : List Instr → State → Host.Outcome State Fault Refusal
  | [], s => .next s
  | i :: rest, s =>
    match exec i s with
    | .next t => runAll rest t
    | .fault r => .fault r
    | .refused r => .refused r

/-- `EG.KEYON` under the edge-triggered reading (93 G11): ignored while the key is already down. -/
def edgeKeyon (e : BitVec 3) (s : State) : Host.Outcome State Fault Refusal :=
  if (s.getEg e).keydown then .next s else exec (.egKeyon e) s

/-- `2π * Σ over m > i with M[i][m] = 1 of g[m] * sin(W[m])` (42 R160). -/
noncomputable def modulationOf (top : BitVec 42) (g W : Fin 6 → ℝ) (i : Fin 6) : ℝ :=
  2 * Real.pi * ∑ m : Fin 6, if i < m ∧ modulates top i m = true then g m * Real.sin (W m) else 0

/-- `Σ over carriers of g[c] * sin(W[c])` (42 R158). -/
noncomputable def carrierSumReal (top : BitVec 42) (g W : Fin 6 → ℝ) : ℝ :=
  ∑ c : Fin 6, if isCarrier top c = true then g c * Real.sin (W c) else 0

/-- The real values of six NUM lanes. -/
noncomputable def reals (env : Nat → ℝ) (v : Vector NUM 6) (i : Fin 6) : ℝ := realValue env v[i]

/-- Two cores hold the same real phases and otherwise the same registers (42 R168). -/
def FmCore.SameReals (env : Nat → ℝ) (a b : FmCore) : Prop :=
  a.valid = b.valid ∧ a.alg = b.alg ∧ a.sr = b.sr ∧ a.ratio = b.ratio ∧
    ∀ i : Fin 6, realValue env a.phase[i] = realValue env b.phase[i]

/-- Two audio streams have the same real samples. -/
def sameAudio (env : Nat → ℝ) (a b : List NUM) : Prop := a.map (realValue env) = b.map (realValue env)

end Sys2Proof.Machine
end

