-- ==== Sys2Proof/Certificates/Slice0/Obligations.lean ====
section
/-! DEFINITION. The statements for the provers, from the numbered rules of spec/. `Config.cfg` is any well-formed
configuration (00_scope R8). -/

open Sys2Proof Sys2Proof.Machine

/-! Encoding, step and reset. -/

/-- Decoding the word and the ports of a well-formed command gives it back (30_encoding R72, R76, R77; the ports beside the
word as in notes/assumptions/11.md). -/
def Obligations.DecodeOfEncode : Prop :=
  ∀ i : Instr, i.WellFormed → decode i.word i.ports = .ok i

/-- 30_encoding R72: each word selects exactly one row of the table, with an instance index at most 5 for EG, or is
reserved and selects none; the rows are disjoint; and the decoder answers accordingly. -/
def Obligations.EveryWordIsOneRowOrReserved : Prop :=
  (∀ r r' : Row, r ∈ opcodeTable → r' ∈ opcodeTable → ∀ w : Byte, r.selects w = true → r'.selects w = true → r = r') ∧
  ∀ (w : Byte) (p : Ports),
    (reservedWord w ∧ ¬ ((∃ r, r ∈ opcodeTable ∧ r.selects w = true) ∧ (unitField w = 0 → oprField w ≤ 5)) ∧
      ∃ why, decode w p = .error why) ∨
    (¬ reservedWord w ∧ (∃ r, r ∈ opcodeTable ∧ r.selects w = true) ∧ (unitField w = 0 → oprField w ≤ 5) ∧
      ∃ i, decode w p = .ok i ∧ i.word = w ∧ i.WellFormed)

/-- 30_encoding R78 and 60_exceptions R182: a step on a reserved word raises ILLEGAL_CMD and does nothing else. -/
def Obligations.ReservedWordsRaiseIllegalCmd : Prop :=
  ∀ (s : State) (w : Byte) (p : Ports) (rest : List Input), s.fault = .none →
    s.pending = .command w p :: rest → reservedWord w →
    step s = .next { s with pending := rest, fault := .illegalCmd, finfo := w }

/-- 30_encoding R78: 40 words are legal, 30 of EG, 8 of LA, 2 of FM. -/
def Obligations.LegalWordCounts : Prop :=
  ((List.range 256).filter fun n => (decodeTableWord 8 n).isSome).length = 40 ∧
  ((List.range 64).filter fun n => (decodeTableWord 8 n).isSome).length = 30 ∧
  ((List.range' 64 64).filter fun n => (decodeTableWord 8 n).isSome).length = 8 ∧
  ((List.range' 128 64).filter fun n => (decodeTableWord 8 n).isSome).length = 2

/-- Words of each unit, written out bit by bit from 30_encoding R73 to R75 (95 V2). -/
def Obligations.SampleWordsDecode : Prop :=
  decodeTableWord 8 0b00101100 = some (.egSample 5) ∧ decodeTableWord 8 0b00010011 = some (.egKeyon 2) ∧
  decodeTableWord 8 0b00001010 = some (.egKeyoff 1) ∧ decodeTableWord 8 0b01000101 = some (.laTarget 0 0) ∧
  decodeTableWord 8 0b10000100 = some (.fmStep (.int 0) (Vector.replicate 6 (.int 0))) ∧
  decodeTableWord 8 0b00000101 = none ∧ decodeTableWord 8 0b10001100 = none

/-- A step takes the next command and is `exec` of the decoded command on the state without it (00_scope R14, 20_memory
R60; the stream in State is the model's, notes/assumptions/8.md). -/
def Obligations.StepRunsDecodedCommand : Prop :=
  ∀ (s : State) (w : Byte) (p : Ports) (rest : List Input) (i : Instr),
    s.pending = .command w p :: rest → decode w p = .ok i → step s = exec i { s with pending := rest }

/-- 60_exceptions R197: with no command presented the block holds its state (notes/assumptions/8.md). -/
def Obligations.IdleBlockHoldsItsState : Prop :=
  ∀ s : State, s.pending = [] → step s = .next s

/-- 10_state R38, 60_exceptions R189: the input `rst` clears every VALID bit and FAULT, whatever the block held, and
leaves no value on a result port (notes/assumptions/6.md, 7.md, 9.md). -/
def Obligations.ResetInputClears : Prop :=
  ∀ (s : State) (rest : List Input), s.pending = .reset :: rest →
    ∃ t : State, step s = .next t ∧ t.pending = rest ∧ (∀ e : BitVec 3, (t.getEg e).valid = false) ∧
      t.fm.valid = false ∧ t.fault = .none ∧ t.faultOut = 0 ∧ t.finfoOut = none ∧ t.levelOut = none ∧ t.qOut = none ∧
      t.qfOut = none ∧ t.audioOut = none

/-- 10_state R38, R39: the values the spec gives for reset. -/
def Obligations.ResetStateValues : Prop :=
  (∀ e : BitVec 3, (State.reset.getEg e).valid = false) ∧ State.reset.fm.valid = false ∧ State.reset.fault = .none ∧
  State.reset.faultOut = 0

/-! Faults. -/

/-- 60_exceptions R181, R189: while FAULT is not 0 every command is ignored, legal or reserved. -/
def Obligations.FaultedBlockIgnoresCommands : Prop :=
  (∀ (i : Instr) (s : State), s.fault ≠ .none → exec i s = .next s) ∧
  ∀ (s : State) (w : Byte) (p : Ports) (rest : List Input), s.fault ≠ .none → s.pending = .command w p :: rest →
    step s = .next { s with pending := rest }

/-- 60_exceptions R181: a command that faults writes FAULT and FINFO (its command word) and nothing else. -/
def Obligations.FaultingCommandWritesOnlyFaultRegisters : Prop :=
  ∀ (i : Instr) (s t : State), s.fault = .none → exec i s = .next t → t.fault ≠ .none →
    t = { s with fault := t.fault, finfo := i.word }

/-- 60_exceptions R183: the commands that read a unit raise UNINIT where its VALID bit is 0, and do nothing else. -/
def Obligations.UninitialisedUnitRaisesUninit : Prop :=
  ∀ s : State, s.fault = .none →
    (∀ e : BitVec 3, e.toNat < 6 → (s.getEg e).valid = false →
      exec (.egKeyon e) s = .next { s with fault := .uninit, finfo := wordOf 0 e 3 } ∧
      exec (.egKeyoff e) s = .next { s with fault := .uninit, finfo := wordOf 0 e 2 } ∧
      exec (.egSample e) s = .next { s with fault := .uninit, finfo := wordOf 0 e 4 }) ∧
    (s.fm.valid = false → ∀ (f : NUM) (g : Vector NUM 6),
      exec (.fmStep f g) s = .next { s with fault := .uninit, finfo := 0x84 })

/-- 60_exceptions R184: every operand out of its range, command by command; velocity never is one. Sample rate and ratios
are compared as real numbers (42_fm_core R153, R175; the host's named numbers as in notes/assumptions/4.md), `s` and `q` are
carried in 8 bits (notes/assumptions/10.md). -/
def Obligations.OutOfRangeOperandRaisesBadOperand : Prop :=
  ∀ s : State, s.fault = .none →
    (∀ (e : BitVec 3) (r l : Vector (BitVec 7) 4) (b : BitVec 13), e.toNat < 6 →
      ((∃ n : Fin 4, 99 < r[n].toNat) ∨ (∃ n : Fin 4, 99 < l[n].toNat) ∨ olbiasMax Config.cfg < (b.toNat : Int)) →
      exec (.egInit e r l b) s = .next { s with fault := .badOperand, finfo := wordOf 0 e 1 }) ∧
    (∀ l : BitVec 7, 99 < l.toNat →
      exec (.laScaleol l) s = .next { s with fault := .badOperand, finfo := 0x40 }) ∧
    (∀ (v : BitVec 16) (sens : BitVec 8), 7 < sens.toNat →
      exec (.laScalevel v sens) s = .next { s with fault := .badOperand, finfo := 0x41 }) ∧
    (∀ (ol : BitVec 7) (v : BitVec 16) (sens : BitVec 8), 99 < ol.toNat ∨ 7 < sens.toNat →
      exec (.laOlbias ol v sens) s = .next { s with fault := .badOperand, finfo := 0x42 }) ∧
    (∀ r : BitVec 7, 99 < r.toNat → exec (.laQrate r) s = .next { s with fault := .badOperand, finfo := 0x43 }) ∧
    (∀ q : BitVec 8, 63 < q.toNat → exec (.laRateinc q) s = .next { s with fault := .badOperand, finfo := 0x44 }) ∧
    (∀ (l : BitVec 7) (b : BitVec 13), 99 < l.toNat ∨ olbiasMax Config.cfg < (b.toNat : Int) →
      exec (.laTarget l b) s = .next { s with fault := .badOperand, finfo := 0x45 }) ∧
    (∀ (alg : BitVec 8) (sr : NumOperand) (ratio : Vector NumOperand 6) (phase0 : Vector NUM 6), alg.toNat ≤ 31 →
      (¬ 0 < realValue Config.hostNumber sr.value ∨ ∃ i : Fin 6, realValue Config.hostNumber ratio[i].value < 0) →
      exec (.fmInit alg sr ratio phase0) s = .next { s with fault := .badOperand, finfo := 0x81 }) ∧
    (∀ (ol : BitVec 7) (v : BitVec 16) (sens : BitVec 8), ol.toNat ≤ 99 → sens.toNat ≤ 7 →
      ∃ t t' : State, exec (.laScalevel v sens) s = .next t ∧ t.fault = .none ∧
        exec (.laOlbias ol v sens) s = .next t' ∧ t'.fault = .none)

/-- 60_exceptions R185, R188: an algorithm id outside 0..31 is reported before any other operand is looked at, and no FM
register is written. -/
def Obligations.AlgorithmOutOfRangeRaisesAlgRange : Prop :=
  ∀ (s : State) (alg : BitVec 8) (sr : NumOperand) (ratio : Vector NumOperand 6) (phase0 : Vector NUM 6),
    s.fault = .none → 31 < alg.toNat →
    exec (.fmInit alg sr ratio phase0) s = .next { s with fault := .algRange, finfo := 0x81 }

/-- 40_eg_commands R91 to R96: an EG command with index 6 or 7 raises ILLEGAL_CMD before anything else is checked
(the meanings check it, notes/assumptions/16.md). -/
def Obligations.IllegalInstanceIndex : Prop :=
  ∀ (i : Instr) (e : BitVec 3) (s : State), egOf i = some e → 5 < e.toNat → s.fault = .none →
    exec i s = .next { s with fault := .illegalCmd, finfo := i.word }

/-- 60_exceptions R180, 40_eg_commands R106: under a well-formed configuration TOPOLOGY and OVERFLOW cannot occur, in any
state that keeps the invariant (well-formedness as the model reads it, notes/assumptions/2.md). -/
def Obligations.NoOverflowNoTopologyFault : Prop :=
  ∀ (i : Instr) (s t : State), s.Inv → s.fault = .none → exec i s = .next t →
    t.fault ≠ .overflow ∧ t.fault ≠ .topology

/-! EG unit. -/

/-- 40_eg_commands R91: `EG.NOP`, its word `00 eee 000`, on a valid instance or not. -/
def Obligations.EgNopDoesNothing : Prop :=
  ∀ (e : BitVec 3) (s : State),
    Instr.word (.egNop e) = (0 : BitVec 2) ++ e ++ (0 : BitVec 3) ∧
    (s.fault = .none → e.toNat ≤ 5 → exec (.egNop e) s = .next s) ∧
    (s.fault = .none → 5 < e.toNat →
      exec (.egNop e) s = .next { s with fault := .illegalCmd, finfo := wordOf 0 e 0 }) ∧
    (s.fault ≠ .none → exec (.egNop e) s = .next s)

/-- 10_state R40, 40_eg_commands R92: the instance right after `EG.INIT`; nothing else of the block changes; the state is the
one `EG.KEYON` would produce, so that a first key-on changes nothing. -/
def Obligations.EgInitBuildsTheInstance : Prop :=
  ∀ (e : BitVec 3) (r l : Vector (BitVec 7) 4) (b : BitVec 13) (s : State), s.fault = .none → e.toNat < 6 →
    (∀ n : Fin 4, r[n].toNat ≤ 99) → (∀ n : Fin 4, l[n].toNat ≤ 99) → (b.toNat : Int) ≤ olbiasMax Config.cfg →
    ∃ t : State, exec (.egInit e r l b) s = .next t ∧
      t = s.setEg e
        { erate := r, elvl := l, olbias := b, cur := 0
          tgt := s32 (target Config.cfg l[(0 : Fin 4)].toNat b.toNat)
          inc := s32 (rateinc Config.cfg (qrate r[(0 : Fin 4)].toNat))
          stage := 0, keydown := true, rising := true, valid := true } ∧
      0 < (t.getEg e).tgt.toInt ∧ exec (.egKeyon e) t = .next t

/-- 40_eg_commands R94: the key goes down and stage 0 is loaded; the level, the parameters and the rest of the block stay. -/
def Obligations.EgKeyonRestartsStageZero : Prop :=
  ∀ (e : BitVec 3) (s : State), s.fault = .none → e.toNat < 6 → (s.getEg e).valid = true →
    (s.getEg e).Ok Config.cfg →
    exec (.egKeyon e) s = .next (s.setEg e
      { s.getEg e with
        keydown := true
        stage := 0
        tgt := s32 (target Config.cfg (s.getEg e).elvl[(0 : Fin 4)].toNat (s.getEg e).olbias.toNat)
        rising := decide ((s.getEg e).cur.toInt <
          target Config.cfg (s.getEg e).elvl[(0 : Fin 4)].toNat (s.getEg e).olbias.toNat)
        inc := s32 (rateinc Config.cfg (qrate (s.getEg e).erate[(0 : Fin 4)].toNat)) })

/-- 40_eg_commands R95: the key goes up and stage 3 is loaded, from any stage; the level stays. -/
def Obligations.EgKeyoffEntersStageThree : Prop :=
  ∀ (e : BitVec 3) (s : State), s.fault = .none → e.toNat < 6 → (s.getEg e).valid = true →
    (s.getEg e).Ok Config.cfg →
    exec (.egKeyoff e) s = .next (s.setEg e
      { s.getEg e with
        keydown := false
        stage := 3
        tgt := s32 (target Config.cfg (s.getEg e).elvl[(3 : Fin 4)].toNat (s.getEg e).olbias.toNat)
        rising := decide ((s.getEg e).cur.toInt <
          target Config.cfg (s.getEg e).elvl[(3 : Fin 4)].toNat (s.getEg e).olbias.toNat)
        inc := s32 (rateinc Config.cfg (qrate (s.getEg e).erate[(3 : Fin 4)].toNat)) })

/-- 40_eg_commands R97 with R96, R100: a sample while rising. `c0` is the level, at least RISE_FLOOR; `c1` the level moved
up. Short of the target the level is `c1`; at or past it the level is the target and the next stage `n` is loaded, RISING
comparing the new target with the old one; in stage 3 only the level is written. LEVEL_OUT is the level after. -/
def Obligations.EgSampleRises : Prop :=
  ∀ (e : BitVec 3) (s : State) (g : EgInst), s.fault = .none → e.toNat < 6 → g = s.getEg e → g.valid = true →
    g.Ok Config.cfg → (g.stage.toNat ≤ 2 ∨ g.keydown = false) → g.rising = true →
    ∃ (c0 c1 : Int) (n : Fin 4) (g' : EgInst),
      c0 = max g.cur.toInt Config.cfg.riseFloor ∧
      c1 = c0 + (Config.cfg.riseCeil - c0) / 2 ^ Config.cfg.riseShift * g.inc.toInt ∧
      n = stageIndex g + 1 ∧
      g' = (if c1 < g.tgt.toInt then { g with cur := s32 c1 }
        else if g.stage.toNat ≤ 2 then
          { g with
            cur := g.tgt
            stage := g.stage + 1
            tgt := s32 (target Config.cfg g.elvl[n].toNat g.olbias.toNat)
            rising := decide (g.tgt.toInt < target Config.cfg g.elvl[n].toNat g.olbias.toNat)
            inc := s32 (rateinc Config.cfg (qrate g.erate[n].toNat)) }
        else { g with cur := g.tgt }) ∧
      exec (.egSample e) s = .next ((s.setEg e g').drive (.levelOut e g'.cur))

/-- 40_eg_commands R98 with R96, R100: a sample while falling, in the same form. -/
def Obligations.EgSampleFalls : Prop :=
  ∀ (e : BitVec 3) (s : State) (g : EgInst), s.fault = .none → e.toNat < 6 → g = s.getEg e → g.valid = true →
    g.Ok Config.cfg → (g.stage.toNat ≤ 2 ∨ g.keydown = false) → g.rising = false →
    ∃ (c1 : Int) (n : Fin 4) (g' : EgInst),
      c1 = g.cur.toInt - g.inc.toInt ∧
      n = stageIndex g + 1 ∧
      g' = (if g.tgt.toInt < c1 then { g with cur := s32 c1 }
        else if g.stage.toNat ≤ 2 then
          { g with
            cur := g.tgt
            stage := g.stage + 1
            tgt := s32 (target Config.cfg g.elvl[n].toNat g.olbias.toNat)
            rising := decide (g.tgt.toInt < target Config.cfg g.elvl[n].toNat g.olbias.toNat)
            inc := s32 (rateinc Config.cfg (qrate g.erate[n].toNat)) }
        else { g with cur := g.tgt }) ∧
      exec (.egSample e) s = .next ((s.setEg e g').drive (.levelOut e g'.cur))

/-- 40_eg_commands R99: with the key down in stage 3 a sample changes no register and shows the level, for any target,
increment and rising flag (95 V24). -/
def Obligations.SustainHolds : Prop :=
  ∀ (e : BitVec 3) (s : State), s.fault = .none → e.toNat < 6 → (s.getEg e).valid = true → (s.getEg e).stage = 3 →
    (s.getEg e).keydown = true →
    exec (.egSample e) s = .next (s.drive (.levelOut e (s.getEg e).cur))

/-- 40_eg_commands R101: once stage 3 with the key up has reached its target, every further sample shows the target and
leaves every register as it was. -/
def Obligations.TerminalHoldIsPermanent : Prop :=
  ∀ (e : BitVec 3) (s : State) (k : Nat), s.fault = .none → e.toNat < 6 → (s.getEg e).valid = true →
    (s.getEg e).Ok Config.cfg → (s.getEg e).stage = 3 → (s.getEg e).keydown = false →
    (s.getEg e).cur = (s.getEg e).tgt →
    runAll (List.replicate k (.egSample e)) s =
      .next { s with results := List.replicate k (.levelOut e (s.getEg e).tgt) ++ s.results }

/-- 40_eg_commands R102: a repeated `EG.KEYOFF` leaves the instance but for RISING, which differs only at the target with
RISING set, and no result of any later commands shows the difference. -/
def Obligations.RepeatedKeyoffIsIdempotent : Prop :=
  ∀ (e : BitVec 3) (s : State), s.fault = .none → e.toNat < 6 → (s.getEg e).valid = true →
    (s.getEg e).Ok Config.cfg → (s.getEg e).keydown = false →
    ∃ t : State, exec (.egKeyoff e) s = .next t ∧
      t = s.setEg e { s.getEg e with rising := decide ((s.getEg e).cur.toInt < (s.getEg e).tgt.toInt) } ∧
      ((t.getEg e).rising ≠ (s.getEg e).rising → (s.getEg e).cur = (s.getEg e).tgt ∧ (s.getEg e).rising = true) ∧
      ∀ later : List Instr, ∃ u v : State, runAll later s = .next u ∧ runAll later t = .next v ∧ u.results = v.results

/-- 40_eg_commands R103: `EG.KEYON` directly after `EG.INIT` changes no register, under either reading of R94 (a). -/
def Obligations.KeyonAfterInitChangesNothing : Prop :=
  ∀ (e : BitVec 3) (r l : Vector (BitVec 7) 4) (b : BitVec 13) (s : State), s.fault = .none → e.toNat < 6 →
    (∀ n : Fin 4, r[n].toNat ≤ 99) → (∀ n : Fin 4, l[n].toNat ≤ 99) → (b.toNat : Int) ≤ olbiasMax Config.cfg →
    ∃ t : State, exec (.egInit e r l b) s = .next t ∧ t.fault = .none ∧ exec (.egKeyon e) t = .next t ∧
      edgeKeyon e t = .next t

/-- 70_reset_and_hazards R211: under the key-on duty (the key is up, or `EG.INIT` came directly before) the unconditional
and the edge-triggered reading of `EG.KEYON` give the same state. -/
def Obligations.KeyonReadingsAgreeUnderDuty : Prop :=
  ∀ (e : BitVec 3) (s : State),
    (((s.getEg e).keydown = false) ∨
      ∃ (r l : Vector (BitVec 7) 4) (b : BitVec 13) (s0 : State), s0.fault = .none ∧ e.toNat < 6 ∧
        (∀ n : Fin 4, r[n].toNat ≤ 99) ∧ (∀ n : Fin 4, l[n].toNat ≤ 99) ∧ (b.toNat : Int) ≤ olbiasMax Config.cfg ∧
        exec (.egInit e r l b) s0 = .next s) →
    edgeKeyon e s = exec (.egKeyon e) s

/-- 40_eg_commands R104: after `EG.KEYOFF` finitely many samples reach the terminal hold; with the key held they reach the
sustain hold; no command on the way faults. -/
def Obligations.EnvelopeTerminates : Prop :=
  ∀ (e : BitVec 3) (s : State), s.fault = .none → e.toNat < 6 → (s.getEg e).valid = true →
    (s.getEg e).Ok Config.cfg →
    (∃ (k : Nat) (u : State), runAll (.egKeyoff e :: List.replicate k (.egSample e)) s = .next u ∧
      u.fault = .none ∧ (u.getEg e).stage = 3 ∧ (u.getEg e).keydown = false ∧ (u.getEg e).cur = (u.getEg e).tgt) ∧
    ((s.getEg e).keydown = true →
      ∃ (k : Nat) (u : State), runAll (List.replicate k (.egSample e)) s = .next u ∧
        u.fault = .none ∧ (u.getEg e).stage = 3 ∧ (u.getEg e).keydown = true)

/-- 40_eg_commands R105: within a stage the level moves toward its target, up while RISING and strictly down otherwise,
and stays on its side of the target until it lands on it. -/
def Obligations.LevelMonotoneWithinStage : Prop :=
  ∀ (e : BitVec 3) (s : State), s.fault = .none → e.toNat < 6 → (s.getEg e).valid = true →
    (s.getEg e).Ok Config.cfg → ((s.getEg e).stage.toNat ≤ 2 ∨ (s.getEg e).keydown = false) →
    ∃ t : State, exec (.egSample e) s = .next t ∧
      ((s.getEg e).rising = true →
        (s.getEg e).cur.toInt ≤ (t.getEg e).cur.toInt ∧ (t.getEg e).cur.toInt ≤ (s.getEg e).tgt.toInt) ∧
      ((s.getEg e).rising = false → (s.getEg e).tgt.toInt ≤ (t.getEg e).cur.toInt ∧
        ((t.getEg e).cur.toInt < (s.getEg e).cur.toInt ∨ (t.getEg e).cur = (s.getEg e).tgt))

/-- Every step keeps the invariant of the registers (10_state R22 to R28, R32, R33, 40_eg_commands R93). -/
def Obligations.StepKeepsTheInvariant : Prop :=
  ∀ s t : State, s.Inv → step s = .next t → t.Inv

/-- The state after reset keeps the invariant (10_state R38; the values it gives registers without one are the model's,
notes/assumptions/5.md). -/
def Obligations.ResetKeepsTheInvariant : Prop := State.reset.Inv

/-- 10_state R23, R24, R25: the ranges of the registers of an instance that keeps the invariant. -/
def Obligations.InstanceRegisterRanges : Prop :=
  ∀ (s : State) (e : BitVec 3), s.Inv → e.toNat < 6 → (s.getEg e).valid = true →
    0 ≤ (s.getEg e).cur.toInt ∧ (s.getEg e).cur.toInt ≤ 17 * 2 ^ 24 ∧
    16 * 2 ^ Config.cfg.tgtShl ≤ (s.getEg e).tgt.toInt ∧
    (s.getEg e).tgt.toInt ≤ Config.cfg.riseCeil - 2 ^ Config.cfg.riseShift ∧
    1 ≤ (s.getEg e).inc.toInt ∧ ((s.getEg e).olbias.toNat : Int) ≤ olbiasMax Config.cfg ∧
    ((s.getEg e).rising = true → (s.getEg e).cur.toInt ≤ (s.getEg e).tgt.toInt) ∧
    ((s.getEg e).rising = false → (s.getEg e).tgt.toInt ≤ (s.getEg e).cur.toInt)

/-- 10_state R26, 40_eg_commands R109: how STAGE can change, over all commands and all states: to 0 by INIT and KEYON, to 3
by KEYOFF, to the next stage by SAMPLE from stage 0, 1 or 2, and by nothing else. -/
def Obligations.StageChangesOnlyAsListed : Prop :=
  ∀ (i : Instr) (s t : State) (e : BitVec 3), e.toNat < 6 → exec i s = .next t →
    (t.getEg e).stage = (s.getEg e).stage ∨
    (((∃ r l b, i = .egInit e r l b) ∨ i = .egKeyon e) ∧ (t.getEg e).stage = 0) ∨
    (i = .egKeyoff e ∧ (t.getEg e).stage = 3) ∨
    (i = .egSample e ∧ (s.getEg e).stage.toNat ≤ 2 ∧ (t.getEg e).stage.toNat = (s.getEg e).stage.toNat + 1)

/-- 20_memory R65, 10_state R20 (the columns "written by"): what the EG commands leave unchanged. An EG command on `e`
writes no other instance, nothing of the FM core and no input; INIT alone writes the parameters; KEYON and KEYOFF keep
CUR; SAMPLE keeps KEYDOWN; only SAMPLE drives a port. FAULT and FINFO stay, unless the command faults. -/
def Obligations.EgCommandFrame : Prop :=
  ∀ (i : Instr) (e : BitVec 3) (s t : State), egOf i = some e → exec i s = .next t →
    (∀ e' : BitVec 3, e' ≠ e → t.getEg e' = s.getEg e') ∧ t.fm = s.fm ∧ t.pending = s.pending ∧
    (t.fault = .none → s.fault = .none ∧ t.finfo = s.finfo) ∧
    ((∀ r l b, i ≠ .egInit e r l b) →
      (t.getEg e).erate = (s.getEg e).erate ∧ (t.getEg e).elvl = (s.getEg e).elvl ∧
      (t.getEg e).olbias = (s.getEg e).olbias ∧ (t.getEg e).valid = (s.getEg e).valid) ∧
    (i = .egKeyon e ∨ i = .egKeyoff e → (t.getEg e).cur = (s.getEg e).cur) ∧
    (i = .egSample e → (t.getEg e).keydown = (s.getEg e).keydown) ∧
    (i = .egNop e → t.getEg e = s.getEg e) ∧
    (i ≠ .egSample e → t.results = s.results)

/-- 10_state R36: the result of an EG command depends only on that instance, the fault state, the configuration and the
operands: two blocks that agree on them get the same instance, the same fault and the same item on the port. -/
def Obligations.EgResultDependsOnItsInstanceOnly : Prop :=
  ∀ (i : Instr) (e : BitVec 3) (s s' : State), egOf i = some e → s.getEg e = s'.getEg e → s.fault = s'.fault →
    ∃ (t t' : State) (new : List Result), exec i s = .next t ∧ exec i s' = .next t' ∧ t.getEg e = t'.getEg e ∧
      t.fault = t'.fault ∧ t.results = new ++ s.results ∧ t'.results = new ++ s'.results

/-- 20_memory R65: commands of different instances can be interleaved in any order, as long as none faults: the same
instances, and the same level stream of each. -/
def Obligations.EgCommandsOfTwoInstancesCommute : Prop :=
  ∀ (i j : Instr) (e e' : BitVec 3) (s t t' : State), egOf i = some e → egOf j = some e' → e ≠ e' →
    s.fault = .none → exec i s = .next t → t.fault = .none → exec j s = .next t' → t'.fault = .none →
    ∃ u u' : State, exec j t = .next u ∧ exec i t' = .next u' ∧ u.eg = u'.eg ∧ u.fm = u'.fm ∧ u.fault = .none ∧
      u'.fault = .none ∧ ∀ e'' : BitVec 3, u.levelStream e'' = u'.levelStream e''

/-! LA unit. -/

/-- 41_log_arith R122: below 20 LUTROM, from 20 on `28 + l`; Q is that and nothing else changes. -/
def Obligations.ScaleolResult : Prop :=
  ∀ (l : BitVec 7) (s : State), s.fault = .none → l.toNat ≤ 99 →
    ∃ x : Int, (∀ h : l.toNat < 20, x = Config.cfg.levelLut ⟨l.toNat, h⟩) ∧ (20 ≤ l.toNat → x = 28 + l.toNat) ∧
      exec (.laScaleol l) s = .next (s.drive (.q (s32 x))) ∧ (s32 x).toInt = x

/-- 41_log_arith R123: velocity clamped, the curve indexed by velocity shifted right by 1, the shift right flooring. -/
def Obligations.ScalevelResult : Prop :=
  ∀ (v : BitVec 16) (sens : BitVec 8) (s : State) (vc : Nat) (h : vc / 2 < 64), s.fault = .none → sens.toNat ≤ 7 →
    (vc : Int) = min (max v.toInt 0) 127 →
    ∃ x : Int, x = ((sens.toNat : Int) * ((Config.cfg.velCurve ⟨vc / 2, h⟩ : Int) - Config.cfg.velOffset) + 7) / 8 * 16 ∧
      exec (.laScalevel v sens) s = .next (s.drive (.q (s32 x))) ∧ (s32 x).toInt = x

/-- 41_log_arith R124: OLBIAS is SCALEOL shifted left by 5 plus SCALEVEL, floored at 0. -/
def Obligations.OlbiasResult : Prop :=
  ∀ (ol : BitVec 7) (v : BitVec 16) (sens : BitVec 8) (s : State), s.fault = .none → ol.toNat ≤ 99 →
    sens.toNat ≤ 7 →
    ∃ x y z : Int, exec (.laScaleol ol) s = .next (s.drive (.q (s32 x))) ∧ (s32 x).toInt = x ∧
      exec (.laScalevel v sens) s = .next (s.drive (.q (s32 y))) ∧ (s32 y).toInt = y ∧ z = max 0 (x * 32 + y) ∧
      exec (.laOlbias ol v sens) s = .next (s.drive (.q (s32 z))) ∧ (s32 z).toInt = z

/-- 41_log_arith R125: `min((r * 41) >> 6, 63)` on Q; the clamp never binds. -/
def Obligations.QrateResult : Prop :=
  ∀ (r : BitVec 7) (s : State), s.fault = .none → r.toNat ≤ 99 →
    ∃ x : Int, x = min ((r.toNat : Int) * 41 / 64) 63 ∧ exec (.laQrate r) s = .next (s.drive (.q (s32 x))) ∧
      (s32 x).toInt = x ∧ x = (r.toNat : Int) * 41 / 64

/-- 41_log_arith R126: `INCROM[q]` on Q, at least 1. -/
def Obligations.RateincResult : Prop :=
  ∀ (q : BitVec 8) (s : State) (h : q.toNat < 64), s.fault = .none →
    exec (.laRateinc q) s = .next (s.drive (.q (s32 (Config.cfg.rateToInc ⟨q.toNat, h⟩)))) ∧
    (s32 (Config.cfg.rateToInc ⟨q.toNat, h⟩)).toInt = Config.cfg.rateToInc ⟨q.toNat, h⟩ ∧
    1 ≤ Config.cfg.rateToInc ⟨q.toNat, h⟩

/-- 41_log_arith R127: the larger of 16 and TGT_PRE, shifted left by TGT_SHL; always positive. -/
def Obligations.TargetResult : Prop :=
  ∀ (l : BitVec 7) (b : BitVec 13) (s : State), s.fault = .none → l.toNat ≤ 99 →
    (b.toNat : Int) ≤ olbiasMax Config.cfg →
    ∃ x z : Int, exec (.laScaleol l) s = .next (s.drive (.q (s32 x))) ∧ (s32 x).toInt = x ∧
      z = max 16 (Config.cfg.tgtPre x (b.toNat : Int)) * 2 ^ Config.cfg.tgtShl ∧
      exec (.laTarget l b) s = .next (s.drive (.q (s32 z))) ∧ (s32 z).toInt = z ∧ 0 < z

/-- 41_log_arith R128: over the reals both formulas of the gain are what `LA.GAIN` drives on QF. -/
def Obligations.GainResult : Prop :=
  ∀ (level : S32) (s : State), s.fault = .none →
    ∃ x : NUM, exec (.laGain level) s = .next (s.drive (.qf x)) ∧
      ∀ env : Nat → ℝ, realValue env x = (2 : ℝ) ^ (10 + (level.toInt : ℝ) / 2 ^ 24) / 2 ^ 24 ∧
        realValue env x = (2 : ℝ) ^ ((level.toInt : ℝ) / 2 ^ 24 - 14)

/-- 41_log_arith R128, R130: the gain is positive, strictly increasing, doubles per `2^24`, and turns sums of levels into
products; it is 1 at `14 * 2^24`. -/
def Obligations.GainLaws : Prop :=
  ∀ (env : Nat → ℝ) (a b d : S32),
    0 < realValue env (gain a) ∧ (a.toInt < b.toInt → realValue env (gain a) < realValue env (gain b)) ∧
    (b.toInt = a.toInt + 2 ^ 24 → realValue env (gain b) = 2 * realValue env (gain a)) ∧
    (d.toInt = a.toInt + b.toInt - 14 * 2 ^ 24 →
      realValue env (gain d) = realValue env (gain a) * realValue env (gain b)) ∧
    (a.toInt = 14 * 2 ^ 24 → realValue env (gain a) = 1)

/-- 41_log_arith R129, over the reals; coarse 0 counts as 0.5 in both places. -/
def Obligations.RatioResult : Prop :=
  ∀ (c fn t : BitVec 8) (s : State), s.fault = .none →
    ∃ x : NUM, exec (.laRatio c fn t) s = .next (s.drive (.qf x)) ∧
      ∀ (env : Nat → ℝ) (base : ℝ), base = (if c = 0 then 0.5 else (c.toNat : ℝ)) →
        realValue env x =
          (base + base / 100 * (fn.toNat : ℝ)) * (2 : ℝ) ^ (((t.toNat : ℝ) - 24) / 12)

/-- 41_log_arith R120, 95 V18: an LA command writes no register: it drives one item on Q or QF, or it faults. -/
def Obligations.LaCommandFrame : Prop :=
  ∀ (i : Instr) (s t : State), isLa i = true → exec i s = .next t →
    t.eg = s.eg ∧ t.fm = s.fm ∧ t.pending = s.pending ∧
    ((t.fault = s.fault ∧ t.finfo = s.finfo ∧
        (s.fault = .none → ∃ r : Result, t.results = r :: s.results ∧ ((∃ v, r = .q v) ∨ ∃ v, r = .qf v)) ∧
        (s.fault ≠ .none → t.results = s.results)) ∨
      (s.fault = .none ∧ t.fault ≠ .none ∧ t.results = s.results))

/-- 00_scope R8 (a), (b), 41_log_arith R122, R123: SCALEOL is non-decreasing on 0..99, SCALEVEL is non-decreasing in
velocity, and is 0 at sensitivity 0. -/
def Obligations.ScalingIsMonotone : Prop :=
  (∀ l l' : Nat, l ≤ l' → l' ≤ 99 → scaleol Config.cfg l ≤ scaleol Config.cfg l') ∧
  (∀ (v v' : Int) (s : Nat), v ≤ v' → s ≤ 7 → scalevel Config.cfg v s ≤ scalevel Config.cfg v' s) ∧
  ∀ v : Int, scalevel Config.cfg v 0 = 0

/-- 10_state R25, 41_log_arith R124: OLBIAS_MAX is the largest value `LA.OLBIAS` returns, and it is returned. -/
def Obligations.OlbiasMaxIsTheLargestBias : Prop :=
  (∀ (ol s : Nat) (v : Int), ol ≤ 99 → s ≤ 7 →
    0 ≤ olbias Config.cfg ol v s ∧ olbias Config.cfg ol v s ≤ olbiasMax Config.cfg) ∧
  ∃ (ol s : Nat) (v : Int), ol ≤ 99 ∧ s ≤ 7 ∧ 0 ≤ v ∧ v ≤ 127 ∧ olbias Config.cfg ol v s = olbiasMax Config.cfg

/-! FM unit. -/

/-- 10_state R41, 42_fm_core R153: the core right after `FM.INIT` with a positive sample rate and ratios that are not
negative, compared as real numbers (notes/assumptions/4.md); nothing else of the block changes. -/
def Obligations.FmInitLoadsTheCore : Prop :=
  ∀ (alg : BitVec 8) (sr : NumOperand) (ratio : Vector NumOperand 6) (phase0 : Vector NUM 6) (s : State),
    s.fault = .none → alg.toNat ≤ 31 → 0 < realValue Config.hostNumber sr.value →
    (∀ i : Fin 6, 0 ≤ realValue Config.hostNumber ratio[i].value) →
    ∃ fm : FmCore, exec (.fmInit alg sr ratio phase0) s = .next (s.setFm fm) ∧ fm.valid = true ∧
      fm.alg.toNat = alg.toNat ∧ fm.sr = sr.value ∧ (∀ i : Fin 6, fm.ratio[i] = ratio[i].value) ∧
      ∀ (env : Nat → ℝ) (i : Fin 6), realValue env fm.phase[i] = wrapReal (realValue env phase0[i])

/-- 42_fm_core R154 to R160, over the reals: the six phases advance and wrap; the working phases satisfy
`W[i] = P[i] + 2π * Σ over j > i with M[i][j] of g[j] * sin(W[j])` over the advanced phases `P`, from one descending pass;
Y_RAW is the sum over the carriers and Y is it divided by four times their number; nothing else of the block changes. Where
`SR` is 0, in no state a run reaches, `1 / SR` is the choice of notes/assumptions/22.md. -/
def Obligations.FmStepComputesTheSample : Prop :=
  ∀ (f : NUM) (g : Vector NUM 6) (s : State), s.fault = .none → s.fm.valid = true →
    ∃ (phases : Vector NUM 6) (yRaw y : NUM),
      exec (.fmStep f g) s = .next ((s.setFm { s.fm with phase := phases }).drive (.audio yRaw y)) ∧
      ∀ env : Nat → ℝ,
        (∀ i : Fin 6, realValue env phases[i] = wrapReal (realValue env s.fm.phase[i] +
          2 * Real.pi * (1 / realValue env s.fm.sr) * realValue env f * realValue env s.fm.ratio[i])) ∧
        ∃ W : Fin 6 → ℝ,
          (∀ i : Fin 6, W i = realValue env phases[i] +
            modulationOf (selected Config.cfg s.fm.alg) (reals env g) W i) ∧
          realValue env yRaw = carrierSumReal (selected Config.cfg s.fm.alg) (reals env g) W ∧
          realValue env y = realValue env yRaw / (4 * (carrierCount (selected Config.cfg s.fm.alg) : ℝ))

/-- 10_state R20, R32, R33: what the FM commands leave unchanged: every instance and the inputs; `FM.STEP` writes the
phases alone, `FM.INIT` drives no port; FAULT and FINFO stay, unless the command faults. -/
def Obligations.FmCommandFrame : Prop :=
  ∀ s t : State,
    (∀ (alg : BitVec 8) (sr : NumOperand) (ratio : Vector NumOperand 6) (phase0 : Vector NUM 6),
      exec (.fmInit alg sr ratio phase0) s = .next t →
      t.eg = s.eg ∧ t.pending = s.pending ∧ t.results = s.results ∧
      (t.fault = .none → s.fault = .none ∧ t.finfo = s.finfo) ∧ (t.fault ≠ .none → t.fm = s.fm)) ∧
    (∀ (f : NUM) (g : Vector NUM 6), exec (.fmStep f g) s = .next t →
      t.eg = s.eg ∧ t.pending = s.pending ∧ t.fm.valid = s.fm.valid ∧ t.fm.alg = s.fm.alg ∧ t.fm.sr = s.fm.sr ∧
      t.fm.ratio = s.fm.ratio ∧ (t.fault = .none → s.fault = .none ∧ t.finfo = s.finfo) ∧
      (t.fault ≠ .none → t.fm = s.fm ∧ t.results = s.results))

/-- 10_state R33, 42_fm_core R155: in a state that keeps the invariant the phases of a valid core are real numbers in
`[0, 2π)`, whichever numbers the host presented. -/
def Obligations.PhasesLieInOneTurn : Prop :=
  ∀ (env : Nat → ℝ) (s : State) (i : Fin 6), s.Inv → s.fm.valid = true →
    0 ≤ realValue env s.fm.phase[i] ∧ realValue env s.fm.phase[i] < 2 * Real.pi

/-- 42_fm_core R168: a run of `FM.STEP` may be cut: a second core started with the first core's algorithm, rate, ratios and
phases produces the same real samples as the first core going on, and ends in the same real phases (NUM values as
expressions, notes/assumptions/3.md). -/
def Obligations.BlockSplitCarriesThePhase : Prop :=
  ∀ (env : Nat → ℝ) (s v : State) (items : List (NUM × Vector NUM 6)), s.Inv → s.fault = .none →
    s.fm.valid = true → v.fault = .none →
    ∃ (sr : NumOperand) (ratio : Vector NumOperand 6) (a b : State) (xs ys : List NUM), sr.value = s.fm.sr ∧
      (∀ i : Fin 6, ratio[i].value = s.fm.ratio[i]) ∧ runAll (stepCommands items) s = .next a ∧
      runAll (.fmInit (s.fm.alg.setWidth 8) sr ratio s.fm.phase :: stepCommands items) v = .next b ∧
      a.audioStream = s.audioStream ++ xs ∧ b.audioStream = v.audioStream ++ ys ∧ xs.length = items.length ∧
      sameAudio env xs ys ∧ FmCore.SameReals env a.fm b.fm

/-- 42_fm_core R171: frequency 0 leaves every phase where it is, and ratio 0 freezes an operator's phase at any frequency,
negative ones too; the phase stays in `[0, 2π)`. -/
def Obligations.ZeroFrequencyHoldsThePhase : Prop :=
  ∀ (env : Nat → ℝ) (f : NUM) (g : Vector NUM 6) (s : State) (i : Fin 6), s.Inv → s.fault = .none →
    s.fm.valid = true →
    ∃ t : State, exec (.fmStep f g) s = .next t ∧ t.fault = .none ∧
      (realValue env f = 0 ∨ realValue env s.fm.ratio[i] = 0 →
        realValue env t.fm.phase[i] = realValue env s.fm.phase[i]) ∧
      0 ≤ realValue env t.fm.phase[i] ∧ realValue env t.fm.phase[i] < 2 * Real.pi

/-- 42_fm_core R170: `|Y_RAW|` is at most the sum of the carriers' gains in magnitude; with gains of stored levels, at
most 8, `|Y|` is at most 2. -/
def Obligations.OutputIsBounded : Prop :=
  ∀ (env : Nat → ℝ) (f : NUM) (g : Vector NUM 6) (s : State), s.fault = .none → s.fm.valid = true →
    ∃ (t : State) (yRaw y : NUM), exec (.fmStep f g) s = .next t ∧ t.audioOut = some (yRaw, y) ∧
      |realValue env yRaw| ≤
        ∑ c : Fin 6, (if isCarrier (selected Config.cfg s.fm.alg) c = true then |realValue env g[c]| else 0) ∧
      ((∀ i : Fin 6, |realValue env g[i]| ≤ 8) → |realValue env y| ≤ 2)

/-- 42_fm_core R161, R162 (Scenarios A and B): with no modulation and carrier 1 alone, Y is a quarter of a pure sine; with
algorithm id 31, whose entry the document gives, it is one 24th of the sum of the six oscillators. -/
def Obligations.ScenarioSamples : Prop :=
  (∀ (env : Nat → ℝ) (g p : Vector NUM 6),
    realValue env (normalised 0x01000000000 (sampleRaw 0x01000000000 g p)) =
      realValue env g[(0 : Fin 6)] * Real.sin (realValue env p[(0 : Fin 6)]) / 4) ∧
  ∀ (f : NUM) (g : Vector NUM 6) (s : State), s.fault = .none → s.fm.valid = true → s.fm.alg = 31 →
    ∃ (t : State) (yRaw y : NUM), exec (.fmStep f g) s = .next t ∧ t.audioOut = some (yRaw, y) ∧
      ∀ env : Nat → ℝ, realValue env y =
        1 / 24 * ∑ i : Fin 6, realValue env g[i] * Real.sin (realValue env t.fm.phase[i])

/-- 42_fm_core R155, R161: after any run of `FM.STEP` each phase is the wrap of its start plus `2π / SR * RATIO[i]` times the
sum of the frequencies, whatever the gains and the topology: the modulation never enters it (R156). Where `SR` is 0 under
`env`, the quotient is the choice of notes/assumptions/22.md. -/
def Obligations.PhaseAfterSteps : Prop :=
  ∀ (env : Nat → ℝ) (items : List (NUM × Vector NUM 6)) (s : State) (i : Fin 6), s.Inv → s.fault = .none →
    s.fm.valid = true →
    ∃ t : State, runAll (stepCommands items) s = .next t ∧ t.fault = .none ∧
      realValue env t.fm.phase[i] = wrapReal (realValue env s.fm.phase[i] +
        2 * Real.pi / realValue env s.fm.sr * realValue env s.fm.ratio[i] *
          (items.map fun x => realValue env x.1).sum)

/-- The order test of `FM.INIT` (42_fm_core R153, R175) is on the operand's value: every expression is the value of one
operand and of no second one; the sign it brings is the one the expression shows over the reals where it shows one,
whichever numbers the host's named operands are; a wrapped number (00_scope R12) is never negative; and with an algorithm id in range
`FM.INIT` raises BAD_OPERAND exactly where the real value of the sample rate is not positive or that of a ratio is negative
(notes/assumptions/4.md; the value of a quotient with divisor 0 is the choice of notes/assumptions/22.md). -/
def Obligations.ShownSignIsTheRealSign : Prop :=
  (∀ (env : Nat → ℝ) (x : NUM),
    (shownSign x = some .pos → 0 < realValue env x) ∧ (shownSign x = some .neg → realValue env x < 0) ∧
    (shownSign x = some .zero → realValue env x = 0) ∧
    ∃ p : NumOperand, p.value = x ∧ (∀ p' : NumOperand, p'.value = x → p' = p) ∧
      (∀ sign : Sign, shownSign x = some sign → p.sign = sign) ∧ ((∃ y : NUM, x = .wrap y) → p.sign ≠ .neg)) ∧
  ∀ (alg : BitVec 8) (sr : NumOperand) (ratio : Vector NumOperand 6) (phase0 : Vector NUM 6) (s : State),
    s.fault = .none → alg.toNat ≤ 31 →
    ∃ t : State, exec (.fmInit alg sr ratio phase0) s = .next t ∧
      (t.fault = .badOperand ↔
        ¬ 0 < realValue Config.hostNumber sr.value ∨ ∃ i : Fin 6, realValue Config.hostNumber ratio[i].value < 0)

/-! Whole-machine rules and the host's side. -/

/-- 20_memory R59, 42_fm_core R174: one item per command in command order: a command that drives a port and does not fault
adds exactly one result, every other command none. -/
def Obligations.OneResultPerDrivingCommand : Prop :=
  ∀ (i : Instr) (s t : State), s.fault = .none → exec i s = .next t →
    (t.fault = .none → drivesPort i = true → ∃ r : Result, t.results = r :: s.results) ∧
    (t.fault ≠ .none ∨ drivesPort i = false → t.results = s.results)

/-- 30_encoding R81, 42_fm_core R162, R164 to R167, R174: the lengths of the host's plans and contours
(notes/assumptions/15.md). `EG.NOTE e, on, off` is `on + off` samples and two key commands; a timeline costs each operator
the samples of its sounding events; the gain contours, given a level for each of these samples, and the pitch contour have
one item per frame of the timeline; `F` frames upsample to `F * BF` items; a render is one `FM.INIT` and one `FM.STEP` per
item; note 69 is 440 Hz, constant across its event. Sounding events of pitch 0 are planned by choice (notes/assumptions/23.md), and
so are renders whose gain contours are shorter than the pitch contour, or whose block factor is 0 (notes/assumptions/24.md). -/
def Obligations.HostPlanLengths : Prop :=
  (∀ (e : BitVec 3) (on off : Nat), (noteCommands e on off).length = on + off + 2 ∧
    ((noteCommands e on off).filter fun i => i == .egSample e).length = on + off) ∧
  (∀ (e : BitVec 3) (p : Patch) (events : List NoteEvent),
    ((operatorPlan Config.cfg e p events).filter fun i => i == .egSample e).length =
      (events.map NoteEvent.samples).sum) ∧
  (∀ events : List NoteEvent, (pitchContour events).length = (events.map NoteEvent.frames).sum ∧
    ∀ levels : List S32, levels.length = (events.map NoteEvent.samples).sum →
      (operatorContour events levels).length = (events.map NoteEvent.frames).sum) ∧
  (∀ (contour : List NUM) (bf : Nat), (upsample contour bf).length = contour.length * bf) ∧
  (∀ (alg : BitVec 8) (sr : NumOperand) (ratio : Vector NumOperand 6) (pitch : List NUM) (gains : Vector (List NUM) 6)
    (bf : Nat), (renderPlan alg sr ratio pitch gains bf).length = 1 + pitch.length * bf) ∧
  ∀ (env : Nat → ℝ) (v : BitVec 16) (on off : Nat), ∀ f ∈ pitchContour [.sounding 69 v on off], realValue env f = 440
end

