-- ==== Sys2Proof/Laws/Levels.lean ====
section
/-! SUPPORT. The integer functions of the LA unit over a well-formed configuration (00_scope R8): their ranges, and that no
sub-expression overflows on operands in range (41_log_arith R120). -/

namespace Sys2Proof.Machine

theorem fitsS32_iff (x : Int) : fitsS32 x = true ↔ -2147483648 ≤ x ∧ x ≤ 2147483647 := by
  simp [fitsS32]

@[simp] theorem allFit_nil : allFit [] = true := rfl

@[simp] theorem allFit_cons (x : Int) (xs : List Int) : allFit (x :: xs) = (fitsS32 x && allFit xs) := rfl

@[simp] theorem allFit_append (xs ys : List Int) : allFit (xs ++ ys) = (allFit xs && allFit ys) := by
  simp [allFit]

/-- An integer that fits is read back from its word. -/
theorem s32_toInt {x : Int} (h : fitsS32 x = true) : (s32 x).toInt = x := by
  rw [fitsS32_iff] at h
  rw [s32, BitVec.toInt_ofInt]
  apply Int.bmod_eq_of_le <;> omega

theorem s32_of_toInt (x : S32) : s32 x.toInt = x := BitVec.ofInt_toInt

theorem fitsS32_toInt (x : S32) : fitsS32 x.toInt = true := by
  rw [fitsS32_iff]
  have h1 := BitVec.le_toInt x
  have h2 := BitVec.toInt_lt (x := x)
  omega

/-- The right shift is the floor of the quotient (00_scope R11). -/
theorem shr_nonneg {a : Int} (n : Nat) (h : 0 ≤ a) : 0 ≤ shr a n := Int.ediv_nonneg h (by positivity)

theorem shr_le {a : Int} (n : Nat) (h : 0 ≤ a) : shr a n ≤ a := Int.ediv_le_self _ h

/-- Shifting right a value at least `2^n` leaves at least 1. -/
theorem one_le_shr {a : Int} (n : Nat) (h : 2 ^ n ≤ a) : 1 ≤ shr a n := by
  have hp : (0 : Int) < 2 ^ n := by positivity
  exact (Int.le_ediv_iff_mul_le hp).2 (by omega)

theorem shl_pos {a : Int} (n : Nat) (h : 0 < a) : 0 < shl a n := mul_pos h (by positivity)

theorem le_shl {a : Int} (n : Nat) (h : 0 ≤ a) : a ≤ shl a n := by
  have hp : (1 : Int) ≤ 2 ^ n := by exact_mod_cast Nat.one_le_two_pow
  exact le_mul_of_one_le_right h hp

theorem olbiasMax_nonneg (c : Cfg) : 0 ≤ olbiasMax c := by
  unfold olbiasMax shl
  omega

section
variable {c : Cfg} (hc : c.WellFormed)
include hc

theorem scaleol_range {l : Nat} (h : l ≤ 99) : 0 ≤ scaleol c l ∧ scaleol c l ≤ 127 := by
  unfold scaleol
  split
  · next hl =>
    have h1 := hc.lutMono ⟨l, hl⟩ 19 (Fin.le_last (n := 19) ⟨l, hl⟩)
    have h2 := hc.lutTop
    omega
  · omega

theorem velDelta_range (v : Int) : -255 ≤ velDelta c v ∧ velDelta c v ≤ 255 := hc.velDelta (velIndex v)

theorem scalevel_range (v : Int) {s : Nat} (h : s ≤ 7) : -3600 ≤ scalevel c v s ∧ scalevel c v s ≤ 3584 := by
  have hx := velDelta_range hc v
  have h1 : (s : Int) * velDelta c v ≤ 7 * 255 := by nlinarith
  have h2 : -(7 * 255) ≤ (s : Int) * velDelta c v := by nlinarith
  unfold scalevel shl shr
  omega

/-- `OLBIAS_MAX` fits the 13-bit bias port with room to spare (10_state R25). -/
theorem olbiasMax_le : olbiasMax c ≤ 7648 := by
  have h := hc.velDelta 63
  unfold olbiasMax shl shr
  omega

theorem scaleolParts_fit {l : Nat} (h : l ≤ 99) : allFit (scaleolParts c l) = true := by
  have := scaleol_range hc h
  simp only [scaleolParts, allFit_cons, allFit_nil, Bool.and_true, fitsS32_iff]
  omega

theorem velOffset_range : -255 ≤ c.velOffset ∧ c.velOffset ≤ 510 := by
  have h1 := hc.velDelta 0
  have h2 := hc.velWidth 0
  omega

theorem scalevelParts_fit (v : Int) {s : Nat} (h : s ≤ 7) : allFit (scalevelParts c v s) = true := by
  have hx := velDelta_range hc v
  have h1 : (s : Int) * velDelta c v ≤ 7 * 255 := by nlinarith
  have h2 : -(7 * 255) ≤ (s : Int) * velDelta c v := by nlinarith
  have h3 := scalevel_range hc v h
  have h4 := hc.velWidth (velIndex v)
  have h5 := velOffset_range hc
  simp only [scalevelParts, allFit_cons, allFit_nil, Bool.and_true, Bool.and_eq_true, fitsS32_iff, shr]
  omega

theorem olbiasParts_fit {ol : Nat} (v : Int) {s : Nat} (h : ol ≤ 99) (hs : s ≤ 7) :
    allFit (olbiasParts c ol v s) = true := by
  have h1 := scaleol_range hc h
  have h2 := scalevel_range hc v hs
  have h3 := scaleolParts_fit hc h
  have h4 := scalevelParts_fit hc v hs
  simp only [olbiasParts, allFit_append, h3, h4, allFit_cons, allFit_nil, Bool.and_true, Bool.true_and,
    Bool.and_eq_true, fitsS32_iff, olbias, shl]
  omega

omit hc in
theorem qrate_le (r : Nat) : qrate r ≤ 63 := Nat.min_le_right _ _

omit hc in
theorem qrateParts_fit {r : Nat} (h : r ≤ 99) : allFit (qrateParts r) = true := by
  have := qrate_le r
  simp only [qrateParts, allFit_cons, allFit_nil, Bool.and_true, Bool.and_eq_true, fitsS32_iff, Config.rateMul]
  omega

theorem rateinc_range (q : Nat) : 1 ≤ rateinc c q ∧ rateinc c q ≤ 2147483647 := by
  have h1 := hc.incPos ⟨min q 63, by omega⟩
  have h2 := hc.incFits ⟨min q 63, by omega⟩
  unfold rateinc
  omega

theorem rateincParts_fit (q : Nat) : allFit (rateincParts c q) = true := by
  have := rateinc_range hc q
  simp only [rateincParts, allFit_cons, allFit_nil, Bool.and_true, fitsS32_iff]
  omega

/-- A stage target lies in the range of R8 (e), at least the floor `16 << TGT_SHL` (10_state R24). -/
theorem target_range {l b : Nat} (hl : l ≤ 99) (hb : (b : Int) ≤ olbiasMax c) :
    shl Config.tgtMin c.tgtShl ≤ target c l b ∧ 0 < target c l b ∧
      target c l b ≤ c.riseCeil - 2 ^ c.riseShift ∧ target c l b ≤ Config.levelMax := by
  have h := hc.targetRange l b hl hb
  have hceil := hc.ceilBound
  have hp : (0 : Int) < 2 ^ c.riseShift := by positivity
  refine ⟨?_, h.1, h.2, by omega⟩
  exact mul_le_mul_of_nonneg_right (le_max_left _ _) (by positivity)

theorem targetParts_fit {l b : Nat} (hl : l ≤ 99) (hb : (b : Int) ≤ olbiasMax c) :
    allFit (targetParts c l b) = true := by
  have h1 := scaleolParts_fit hc hl
  have h2 := hc.tgtPreFits l b hl hb
  have h3 := target_range hc hl hb
  have h4 : targetFloored c l b ≤ target c l b := le_shl _ (le_trans (by decide) (le_max_left _ _))
  have h5 : Config.tgtMin ≤ targetFloored c l b := le_max_left _ _
  have hmin : Config.tgtMin = 16 := rfl
  have hmax : Config.levelMax = 285212672 := rfl
  simp only [targetParts, allFit_append, h1, h2, allFit_cons, allFit_nil, Bool.and_true, Bool.true_and,
    Bool.and_eq_true, fitsS32_iff]
  omega

end

end Sys2Proof.Machine
end

