-- ==== Sys2Proof/Laws/Num.lean ====
section
/-! SUPPORT. The real value of an expression, constructor by constructor, and the laws of `wrap` over the reals
(00_scope R12). What the sign of an operand says of its value (42_fm_core R153). -/

namespace Sys2Proof.Machine

variable (env : Nat → ℝ)

theorem realValue_int (n : Int) : realValue env (.int n) = n := rfl

theorem realValue_given (k : Nat) : realValue env (.given k) = env k := rfl

theorem realValue_twoPi : realValue env .twoPi = 2 * Real.pi := rfl

theorem realValue_add (x y : NUM) : realValue env (.add x y) = realValue env x + realValue env y := rfl

theorem realValue_mul (x y : NUM) : realValue env (.mul x y) = realValue env x * realValue env y := rfl

theorem realValue_div (x y : NUM) : realValue env (.div x y) = realValue env x / realValue env y := rfl

theorem realValue_sin (x : NUM) : realValue env (.sin x) = Real.sin (realValue env x) := rfl

theorem realValue_exp2 (x : NUM) : realValue env (.exp2 x) = (2 : ℝ) ^ realValue env x := rfl

theorem realValue_wrap (x : NUM) : realValue env (.wrap x) = wrapReal (realValue env x) := rfl

/-- The real value of a sum is the sum of the real values of its terms (42_fm_core R158). -/
theorem realValue_foldl_add (x : NUM) (xs : List NUM) :
    realValue env (xs.foldl .add x) = realValue env x + (xs.map (realValue env)).sum := by
  induction xs generalizing x with
  | nil => simp
  | cons y ys ih =>
    rw [List.foldl_cons, ih, realValue_add, List.map_cons, List.sum_cons, add_assoc]

omit env in
theorem two_pi_pos' : (0 : ℝ) < 2 * Real.pi := by positivity

omit env in
/-- `wrap` answers a number in `[0, 2π)` (R12). -/
theorem wrapReal_range (x : ℝ) : 0 ≤ wrapReal x ∧ wrapReal x < 2 * Real.pi := by
  have hp := two_pi_pos'
  have h1 := Int.floor_le (x / (2 * Real.pi))
  have h2 := Int.lt_floor_add_one (x / (2 * Real.pi))
  rw [le_div_iff₀ hp] at h1
  rw [div_lt_iff₀ hp] at h2
  unfold wrapReal
  constructor <;> nlinarith

omit env in
/-- A number in `[0, 2π)` is its own representative. -/
theorem wrapReal_of_range {x : ℝ} (h0 : 0 ≤ x) (h1 : x < 2 * Real.pi) : wrapReal x = x := by
  have hp := two_pi_pos'
  have hf : ⌊x / (2 * Real.pi)⌋ = 0 := by
    rw [Int.floor_eq_zero_iff]
    exact ⟨by positivity, (div_lt_one hp).2 h1⟩
  simp [wrapReal, hf]

omit env in
/-- `wrap(wrap(x)) = wrap(x)` (42_fm_core R168). -/
theorem wrapReal_wrapReal (x : ℝ) : wrapReal (wrapReal x) = wrapReal x :=
  wrapReal_of_range (wrapReal_range x).1 (wrapReal_range x).2

omit env in
/-- Wrapping before adding makes no difference to the wrapped sum (42_fm_core R161). -/
theorem wrapReal_add_wrapReal (x y : ℝ) : wrapReal (wrapReal x + y) = wrapReal (x + y) := by
  have hp := two_pi_pos'
  have hd : (wrapReal x + y) / (2 * Real.pi) = (x + y) / (2 * Real.pi) - (⌊x / (2 * Real.pi)⌋ : ℝ) := by
    unfold wrapReal
    field_simp
    ring
  have hf : ⌊(wrapReal x + y) / (2 * Real.pi)⌋ = ⌊(x + y) / (2 * Real.pi)⌋ - ⌊x / (2 * Real.pi)⌋ := by
    rw [hd, Int.floor_sub_intCast]
  show wrapReal x + y - 2 * Real.pi * (⌊(wrapReal x + y) / (2 * Real.pi)⌋ : ℝ) = _
  rw [hf]
  unfold wrapReal
  push_cast
  ring

end Sys2Proof.Machine

namespace Sys2Proof

open Machine

/-- The sign of an operand is positive exactly where its value is (42_fm_core R153). -/
theorem NumOperand.sign_eq_pos (p : NumOperand) : p.sign = .pos ↔ 0 < realValue Config.hostNumber p.value := by
  obtain ⟨value, sign, h⟩ := p
  cases sign
  · exact ⟨nofun, fun hp => absurd hp (lt_asymm h)⟩
  · exact ⟨nofun, fun hp => absurd h hp.ne'⟩
  · exact ⟨fun _ => h, fun _ => rfl⟩

/-- The sign of an operand is negative exactly where its value is. -/
theorem NumOperand.sign_eq_neg (p : NumOperand) : p.sign = .neg ↔ realValue Config.hostNumber p.value < 0 := by
  obtain ⟨value, sign, h⟩ := p
  cases sign
  · exact ⟨fun _ => h, fun _ => rfl⟩
  · exact ⟨nofun, fun hp => absurd h hp.ne⟩
  · exact ⟨nofun, fun hp => absurd hp (lt_asymm h)⟩

end Sys2Proof
end

