-- ==== Sys2Proof/Laws/State.lean ====
section
/-! SUPPORT. One lemma per field per update, so that no proof unfolds a record update, and the instance read back after
each update. -/

namespace Sys2Proof.Machine

@[simp] theorem State.setEg_eg (s : State) (e : BitVec 3) (g : EgInst) : (s.setEg e g).eg = s.eg.setIfInBounds e.toNat g := rfl

@[simp] theorem State.setEg_fm (s : State) (e : BitVec 3) (g : EgInst) : (s.setEg e g).fm = s.fm := rfl

@[simp] theorem State.setEg_fault (s : State) (e : BitVec 3) (g : EgInst) : (s.setEg e g).fault = s.fault := rfl

@[simp] theorem State.setEg_finfo (s : State) (e : BitVec 3) (g : EgInst) : (s.setEg e g).finfo = s.finfo := rfl

@[simp] theorem State.setEg_pending (s : State) (e : BitVec 3) (g : EgInst) : (s.setEg e g).pending = s.pending := rfl

@[simp] theorem State.setEg_results (s : State) (e : BitVec 3) (g : EgInst) : (s.setEg e g).results = s.results := rfl

@[simp] theorem State.setFm_eg (s : State) (fm : FmCore) : (s.setFm fm).eg = s.eg := rfl

@[simp] theorem State.setFm_fm (s : State) (fm : FmCore) : (s.setFm fm).fm = fm := rfl

@[simp] theorem State.setFm_fault (s : State) (fm : FmCore) : (s.setFm fm).fault = s.fault := rfl

@[simp] theorem State.setFm_finfo (s : State) (fm : FmCore) : (s.setFm fm).finfo = s.finfo := rfl

@[simp] theorem State.setFm_pending (s : State) (fm : FmCore) : (s.setFm fm).pending = s.pending := rfl

@[simp] theorem State.setFm_results (s : State) (fm : FmCore) : (s.setFm fm).results = s.results := rfl

@[simp] theorem State.drive_eg (s : State) (r : Result) : (s.drive r).eg = s.eg := rfl

@[simp] theorem State.drive_fm (s : State) (r : Result) : (s.drive r).fm = s.fm := rfl

@[simp] theorem State.drive_fault (s : State) (r : Result) : (s.drive r).fault = s.fault := rfl

@[simp] theorem State.drive_finfo (s : State) (r : Result) : (s.drive r).finfo = s.finfo := rfl

@[simp] theorem State.drive_pending (s : State) (r : Result) : (s.drive r).pending = s.pending := rfl

@[simp] theorem State.drive_results (s : State) (r : Result) : (s.drive r).results = r :: s.results := rfl

@[simp] theorem State.raise_eg (s : State) (k : Cause) (cw : Byte) : (raise k cw s).eg = s.eg := rfl

@[simp] theorem State.raise_fm (s : State) (k : Cause) (cw : Byte) : (raise k cw s).fm = s.fm := rfl

@[simp] theorem State.raise_fault (s : State) (k : Cause) (cw : Byte) : (raise k cw s).fault = k := rfl

@[simp] theorem State.raise_finfo (s : State) (k : Cause) (cw : Byte) : (raise k cw s).finfo = cw := rfl

@[simp] theorem State.raise_pending (s : State) (k : Cause) (cw : Byte) : (raise k cw s).pending = s.pending := rfl

@[simp] theorem State.raise_results (s : State) (k : Cause) (cw : Byte) : (raise k cw s).results = s.results := rfl

@[simp] theorem State.present_eg (s : State) (i : Input) : (s.present i).eg = s.eg := rfl

@[simp] theorem State.present_fm (s : State) (i : Input) : (s.present i).fm = s.fm := rfl

@[simp] theorem State.present_fault (s : State) (i : Input) : (s.present i).fault = s.fault := rfl

@[simp] theorem State.present_finfo (s : State) (i : Input) : (s.present i).finfo = s.finfo := rfl

@[simp] theorem State.present_pending (s : State) (i : Input) : (s.present i).pending = i :: s.pending := rfl

@[simp] theorem State.present_results (s : State) (i : Input) : (s.present i).results = s.results := rfl

@[simp] theorem State.blockReset_eg (s : State) : (s.blockReset).eg = State.reset.eg := rfl

@[simp] theorem State.blockReset_fm (s : State) : (s.blockReset).fm = FmCore.reset := rfl

@[simp] theorem State.blockReset_fault (s : State) : (s.blockReset).fault = .none := rfl

@[simp] theorem State.blockReset_finfo (s : State) : (s.blockReset).finfo = 0 := rfl

@[simp] theorem State.blockReset_pending (s : State) : (s.blockReset).pending = s.pending := rfl

@[simp] theorem State.blockReset_results (s : State) : (s.blockReset).results = [] := rfl

@[simp] theorem State.getEg_setFm (s : State) (fm : FmCore) (e : BitVec 3) : (s.setFm fm).getEg e = s.getEg e := rfl

@[simp] theorem State.getEg_drive (s : State) (r : Result) (e : BitVec 3) : (s.drive r).getEg e = s.getEg e := rfl

@[simp] theorem State.getEg_raise (s : State) (k : Cause) (cw : Byte) (e : BitVec 3) :
    (raise k cw s).getEg e = s.getEg e := rfl

@[simp] theorem State.getEg_present (s : State) (i : Input) (e : BitVec 3) : (s.present i).getEg e = s.getEg e := rfl

@[simp] theorem State.getEg_withPending (s : State) (p : List Input) (e : BitVec 3) :
    State.getEg { s with pending := p } e = s.getEg e := rfl

theorem State.getEg_reset (e : BitVec 3) : State.reset.getEg e = EgInst.reset := by
  revert e
  decide

@[simp] theorem State.getEg_setEg_same (s : State) (e : BitVec 3) (g : EgInst) (h : e.toNat < 6) :
    (s.setEg e g).getEg e = g := by
  simp [State.getEg, State.setEg, h]

theorem State.getEg_setEg_ne (s : State) (e e' : BitVec 3) (g : EgInst) (h : e' ≠ e) :
    (s.setEg e g).getEg e' = s.getEg e' := by
  have h' : e.toNat ≠ e'.toNat := fun hn => h (BitVec.eq_of_toNat_eq hn.symm)
  simp [State.getEg, State.setEg, h']

/-- Writing back what an instance holds changes nothing. -/
theorem State.setEg_getEg (s : State) (e : BitVec 3) : s.setEg e (s.getEg e) = s := by
  have hv : s.eg.setIfInBounds e.toNat (s.getEg e) = s.eg := by
    ext1 i hi
    rw [Vector.getElem_setIfInBounds]
    split
    · next h => subst h; simp [State.getEg, hi]
    · rfl
  show { s with eg := s.eg.setIfInBounds e.toNat (s.getEg e) } = s
  rw [hv]

/-- The last write of an instance stands. -/
theorem State.setEg_setEg (s : State) (e : BitVec 3) (g g' : EgInst) : (s.setEg e g).setEg e g' = s.setEg e g' := by
  have hv : (s.eg.setIfInBounds e.toNat g).setIfInBounds e.toNat g' = s.eg.setIfInBounds e.toNat g' := by
    ext1 i hi
    simp only [Vector.getElem_setIfInBounds]
    split <;> rfl
  show { s with eg := (s.eg.setIfInBounds e.toNat g).setIfInBounds e.toNat g' } = _
  rw [hv]
  rfl

/-- Writes of two instances commute (20_memory R65). -/
theorem State.setEg_comm (s : State) (e e' : BitVec 3) (g g' : EgInst) (h : e ≠ e') :
    (s.setEg e g).setEg e' g' = (s.setEg e' g').setEg e g := by
  have hn : e.toNat ≠ e'.toNat := fun hn => h (BitVec.eq_of_toNat_eq hn)
  have hv : (s.eg.setIfInBounds e.toNat g).setIfInBounds e'.toNat g' =
      (s.eg.setIfInBounds e'.toNat g').setIfInBounds e.toNat g := by
    ext1 i hi
    simp only [Vector.getElem_setIfInBounds]
    split
    · next h1 => rw [if_neg (by omega)]
    · rfl
  show { s with eg := (s.eg.setIfInBounds e.toNat g).setIfInBounds e'.toNat g' } = _
  rw [hv]
  rfl

/-- Two states that hold the same data are equal. -/
theorem State.ext_fields {s t : State} (h1 : s.eg = t.eg) (h2 : s.fm = t.fm) (h3 : s.fault = t.fault)
    (h4 : s.finfo = t.finfo) (h5 : s.pending = t.pending) (h6 : s.results = t.results) : s = t := by
  cases s
  cases t
  simp_all

end Sys2Proof.Machine
end

