-- ==== Sys2Proof/Laws/Ops.lean ====
section
/-! SUPPORT. Everything the shared operations can do: the order of checks (60_exceptions R188) and its cases. -/

namespace Sys2Proof.Machine

@[simp] theorem firstFailing_nil : firstFailing [] = none := rfl

@[simp] theorem firstFailing_cons_true (k : Cause) (rest : List (Bool × Cause)) :
    firstFailing ((true, k) :: rest) = some k := rfl

@[simp] theorem firstFailing_cons_false (k : Cause) (rest : List (Bool × Cause)) :
    firstFailing ((false, k) :: rest) = firstFailing rest := rfl

/-- A check that fails is one of those listed. -/
theorem firstFailing_mem {checks : List (Bool × Cause)} {k : Cause} (h : firstFailing checks = some k) :
    (true, k) ∈ checks := by
  induction checks with
  | nil => cases h
  | cons c rest ih =>
    obtain ⟨bad, k'⟩ := c
    cases bad
    · exact List.mem_cons_of_mem _ (ih h)
    · cases h
      exact List.mem_cons_self

/-- A faulted block ignores the command (R188 (1)). -/
theorem execute_faulted {s : State} (cw : Byte) (checks : List (Bool × Cause)) (effect : Option State)
    (h : s.fault ≠ .none) : execute cw checks effect s = s := if_neg h

/-- The first failing check is the one reported (R188). -/
theorem execute_fails {s : State} {k : Cause} (cw : Byte) {checks : List (Bool × Cause)} (effect : Option State)
    (h : s.fault = .none) (hc : firstFailing checks = some k) : execute cw checks effect s = raise k cw s := by
  simp [execute, h, hc]

/-- No check fails and nothing overflows: the command takes its effect. -/
theorem execute_done {s t : State} (cw : Byte) {checks : List (Bool × Cause)} {effect : Option State}
    (h : s.fault = .none) (hc : firstFailing checks = none) (he : effect = some t) :
    execute cw checks effect s = t := by
  simp [execute, h, hc, he]

/-- No check fails and a sub-expression overflows: `OVERFLOW` (R187). -/
theorem execute_overflows {s : State} (cw : Byte) {checks : List (Bool × Cause)} {effect : Option State}
    (h : s.fault = .none) (hc : firstFailing checks = none) (he : effect = none) :
    execute cw checks effect s = raise .overflow cw s := by
  simp [execute, h, hc, he]

/-- All a command can do: be ignored, raise a check's cause, overflow, or take its effect. -/
theorem execute_cases (cw : Byte) (checks : List (Bool × Cause)) (effect : Option State) (s : State) :
    (s.fault ≠ .none ∧ execute cw checks effect s = s) ∨
    (s.fault = .none ∧ ∃ k, firstFailing checks = some k ∧ execute cw checks effect s = raise k cw s) ∨
    (s.fault = .none ∧ firstFailing checks = none ∧ effect = none ∧
      execute cw checks effect s = raise .overflow cw s) ∨
    (s.fault = .none ∧ firstFailing checks = none ∧ ∃ t, effect = some t ∧ execute cw checks effect s = t) := by
  by_cases h : s.fault = .none
  · cases hc : firstFailing checks with
    | some k => exact .inr (.inl ⟨h, k, rfl, execute_fails cw effect h hc⟩)
    | none =>
      cases he : effect with
      | none => exact .inr (.inr (.inl ⟨h, rfl, rfl, execute_overflows cw h hc rfl⟩))
      | some t => exact .inr (.inr (.inr ⟨h, rfl, t, rfl, execute_done cw h hc rfl⟩))
  · exact .inl ⟨h, execute_faulted cw checks effect h⟩

/-- The next input is the head of the stream. -/
theorem State.takeInput_cons (s : State) (i : Input) (rest : List Input) (h : s.pending = i :: rest) :
    s.takeInput = some (i, { s with pending := rest }) := by
  simp [State.takeInput, h]

theorem State.takeInput_nil (s : State) (h : s.pending = []) : s.takeInput = none := by
  simp [State.takeInput, h]

end Sys2Proof.Machine
end

