-- ==== Sys2Proof/Laws/Commands.lean ====
section
/-! SUPPORT. Every command is one `execute` (60_exceptions R188): its checks, its effect, and all that can come of it.
What each check says. -/

namespace Sys2Proof.Machine

/-- The checks of a command, in the order of R188. -/
def checksOf (i : Instr) (s : State) : List (Bool × Cause) :=
  match i with
  | .egNop e => [(badInstance e, .illegalCmd)]
  | .egInit e r l b =>
    [(badInstance e, .illegalCmd), (badStageValues r, .badOperand), (badStageValues l, .badOperand),
     (badBias Config.cfg b, .badOperand)]
  | .egKeyoff e => [(badInstance e, .illegalCmd), (!(s.getEg e).valid, .uninit)]
  | .egKeyon e => [(badInstance e, .illegalCmd), (!(s.getEg e).valid, .uninit)]
  | .egSample e => [(badInstance e, .illegalCmd), (!(s.getEg e).valid, .uninit)]
  | .laScaleol l => [(badPercent l, .badOperand)]
  | .laScalevel _ sens => [(badSensitivity sens, .badOperand)]
  | .laOlbias ol _ sens => [(badPercent ol, .badOperand), (badSensitivity sens, .badOperand)]
  | .laQrate r => [(badPercent r, .badOperand)]
  | .laRateinc q => [(badQrate q, .badOperand)]
  | .laTarget l b => [(badPercent l, .badOperand), (badBias Config.cfg b, .badOperand)]
  | .laGain _ => []
  | .laRatio _ _ _ => []
  | .fmInit alg sr ratio _ =>
    [(badAlgorithm alg, .algRange), (badSampleRate sr, .badOperand), (badRatios ratio, .badOperand),
     (!topologyOk (selected Config.cfg (alg.setWidth 5)), .topology)]
  | .fmStep _ _ => [(!s.fm.valid, .uninit)]

/-- The effect of a command whose checks pass; none where a sub-expression overflows. -/
def effectOf (i : Instr) (s : State) : Option State :=
  match i with
  | .egNop _ => some s
  | .egInit e r l b =>
    (advance Config.cfg (loaded (s.getEg e) r l b) 0).map fun g => s.setEg e { g with valid := true }
  | .egKeyoff e => (advance Config.cfg { s.getEg e with keydown := false } 3).map (s.setEg e)
  | .egKeyon e => (advance Config.cfg { s.getEg e with keydown := true } 0).map (s.setEg e)
  | .egSample e => (sampleUpdate Config.cfg (s.getEg e)).map fun g => (s.setEg e g).drive (.levelOut e g.cur)
  | .laScaleol l => driveQ (scaleolParts Config.cfg l.toNat) (scaleol Config.cfg l.toNat) s
  | .laScalevel v sens =>
    driveQ (scalevelParts Config.cfg (velocity v) sens.toNat) (scalevel Config.cfg (velocity v) sens.toNat) s
  | .laOlbias ol v sens =>
    driveQ (olbiasParts Config.cfg ol.toNat (velocity v) sens.toNat)
      (olbias Config.cfg ol.toNat (velocity v) sens.toNat) s
  | .laQrate r => driveQ (qrateParts r.toNat) (qrate r.toNat : Int) s
  | .laRateinc q => driveQ (rateincParts Config.cfg q.toNat) (rateinc Config.cfg q.toNat) s
  | .laTarget l b => driveQ (targetParts Config.cfg l.toNat b.toNat) (target Config.cfg l.toNat b.toNat) s
  | .laGain level => some (s.drive (.qf (gain level)))
  | .laRatio c fn t => some (s.drive (.qf (ratio c fn t)))
  | .fmInit alg sr ratio phase0 => some (s.setFm (fmLoaded alg sr.value (ratio.map (·.value)) phase0))
  | .fmStep f g => some (fmStepped Config.cfg f g s)

/-- Every command is one `execute`. -/
theorem exec_eq (i : Instr) (s : State) :
    exec i s = .next (execute i.word (checksOf i s) (effectOf i s) s) := by
  cases i <;> rfl

/-- No check reports cause 0. -/
theorem checksOf_cause (i : Instr) (s : State) : ∀ x ∈ checksOf i s, x.2 ≠ .none := by
  cases i <;> simp [checksOf]

/-- All that a command can do (R188): be ignored, fault with a cause and write the fault registers alone, or pass its
checks and take its effect. -/
theorem exec_cases {i : Instr} {s t : State} (h : exec i s = .next t) :
    (s.fault ≠ .none ∧ t = s) ∨ (s.fault = .none ∧ ∃ k, k ≠ .none ∧ t = raise k i.word s) ∨
      (s.fault = .none ∧ firstFailing (checksOf i s) = none ∧ effectOf i s = some t) := by
  rw [exec_eq] at h
  have ht := Host.Outcome.next.inj h
  rcases execute_cases i.word (checksOf i s) (effectOf i s) s with ⟨h1, h2⟩ | ⟨h1, k, h2, h3⟩ | ⟨h1, -, -, h3⟩ |
    ⟨h1, h2, u, h3, h4⟩
  · exact .inl ⟨h1, ht.symm.trans h2⟩
  · exact .inr (.inl ⟨h1, k, checksOf_cause i s _ (firstFailing_mem h2), ht.symm.trans h3⟩)
  · exact .inr (.inl ⟨h1, .overflow, by decide, ht.symm.trans h3⟩)
  · exact .inr (.inr ⟨h1, h2, by rw [h3, ← h4, ht]⟩)

/-- A command whose checks pass and whose effect exists takes it. -/
theorem exec_done {i : Instr} {s t : State} (h : s.fault = .none) (hc : firstFailing (checksOf i s) = none)
    (he : effectOf i s = some t) : exec i s = .next t := by
  rw [exec_eq, execute_done _ h hc he]

/-- A command one of whose checks fails raises the first cause. -/
theorem exec_fails {i : Instr} {s : State} {k : Cause} (h : s.fault = .none)
    (hc : firstFailing (checksOf i s) = some k) : exec i s = .next (raise k i.word s) := by
  rw [exec_eq, execute_fails _ _ h hc]

/-- Checks that can report one cause alone report it if any fails. -/
theorem firstFailing_only {k : Cause} {checks : List (Bool × Cause)} (hf : ∃ x ∈ checks, x.1 = true)
    (hk : ∀ x ∈ checks, x.1 = true → x.2 = k) : firstFailing checks = some k := by
  induction checks with
  | nil =>
    obtain ⟨x, hx, -⟩ := hf
    cases hx
  | cons x rest ih =>
    obtain ⟨bad, k'⟩ := x
    cases bad
    · obtain ⟨y, hy, hy'⟩ := hf
      rcases List.mem_cons.1 hy with rfl | hy
      · cases hy'
      · exact ih ⟨y, hy, hy'⟩ fun z hz => hk z (List.mem_cons_of_mem _ hz)
    · exact congrArg some (hk (true, k') List.mem_cons_self rfl)

/-- Where no check fails, the first does not, and none of the rest does. -/
theorem firstFailing_cons_none {bad : Bool} {k : Cause} {rest : List (Bool × Cause)}
    (h : firstFailing ((bad, k) :: rest) = none) : bad = false ∧ firstFailing rest = none := by
  cases bad
  · exact ⟨rfl, h⟩
  · cases h

/-- No check fails. -/
theorem firstFailing_eq_none {checks : List (Bool × Cause)} (h : ∀ x ∈ checks, x.1 = false) :
    firstFailing checks = none := by
  induction checks with
  | nil => rfl
  | cons x rest ih =>
    obtain ⟨bad, k⟩ := x
    have hb : bad = false := h (bad, k) List.mem_cons_self
    subst hb
    exact ih fun y hy => h y (List.mem_cons_of_mem _ hy)

theorem badInstance_eq_false {e : BitVec 3} (h : e.toNat < 6) : badInstance e = false :=
  decide_eq_false (by omega)

theorem badPercent_eq_false {x : BitVec 7} (h : x.toNat ≤ 99) : badPercent x = false := decide_eq_false (not_lt.2 h)

theorem badSensitivity_eq_false {x : BitVec 8} (h : x.toNat ≤ 7) : badSensitivity x = false :=
  decide_eq_false (not_lt.2 h)

theorem badQrate_eq_false {x : BitVec 8} (h : x.toNat < 64) : badQrate x = false := decide_eq_false (by omega)

theorem badAlgorithm_eq_false {x : BitVec 8} (h : x.toNat ≤ 31) : badAlgorithm x = false := decide_eq_false (not_lt.2 h)

theorem badBias_eq_false {c : Cfg} {b : BitVec 13} (h : (b.toNat : Int) ≤ olbiasMax c) : badBias c b = false :=
  decide_eq_false (not_lt.2 h)

/-- The sample rate is refused exactly where its value is not positive (42_fm_core R153). -/
theorem badSampleRate_iff {sr : NumOperand} :
    badSampleRate sr = true ↔ ¬ 0 < realValue Config.hostNumber sr.value :=
  decide_eq_true_iff.trans (not_congr sr.sign_eq_pos)

theorem badSampleRate_eq_false {sr : NumOperand} (h : 0 < realValue Config.hostNumber sr.value) :
    badSampleRate sr = false := by
  rw [← Bool.not_eq_true, badSampleRate_iff]
  exact not_not_intro h

theorem badStageValues_iff {xs : Vector (BitVec 7) 4} : badStageValues xs = true ↔ ∃ n : Fin 4, 99 < xs[n].toNat := by
  simp only [badStageValues, List.any_eq_true, badPercent, decide_eq_true_eq]
  exact ⟨fun ⟨n, _, h⟩ => ⟨n, h⟩, fun ⟨n, h⟩ => ⟨n, (by decide : ∀ n : Fin 4, n ∈ stages) n, h⟩⟩

theorem badStageValues_eq_false {xs : Vector (BitVec 7) 4} (h : ∀ n : Fin 4, xs[n].toNat ≤ 99) :
    badStageValues xs = false := by
  rw [← Bool.not_eq_true, badStageValues_iff]
  rintro ⟨n, hn⟩
  exact absurd (h n) (not_le.2 hn)

/-- The ratios are refused exactly where the value of one is negative (42_fm_core R153). -/
theorem badRatios_iff {xs : Vector NumOperand 6} :
    badRatios xs = true ↔ ∃ i : Fin 6, realValue Config.hostNumber xs[i].value < 0 := by
  simp only [badRatios, List.any_eq_true, decide_eq_true_eq, NumOperand.sign_eq_neg]
  exact ⟨fun ⟨n, _, h⟩ => ⟨n, h⟩, fun ⟨n, h⟩ => ⟨n, (by decide : ∀ n : Fin 6, n ∈ indices) n, h⟩⟩

theorem badRatios_eq_false {xs : Vector NumOperand 6} (h : ∀ i : Fin 6, 0 ≤ realValue Config.hostNumber xs[i].value) :
    badRatios xs = false := by
  rw [← Bool.not_eq_true, badRatios_iff]
  rintro ⟨i, hi⟩
  exact absurd (h i) (not_le.2 hi)

/-- An integer LA command that takes effect drives Q. -/
theorem driveQ_some {parts : List Int} {value : Int} {s t : State} (h : driveQ parts value s = some t) :
    t = s.drive (.q (s32 value)) := by
  unfold driveQ at h
  split at h
  · exact (Option.some.inj h).symm
  · cases h

theorem driveQ_fit {parts : List Int} (value : Int) (s : State) (h : allFit parts = true) :
    driveQ parts value s = some (s.drive (.q (s32 value))) := if_pos h

end Sys2Proof.Machine
end

