-- ==== Sys2Proof/Laws/Eg.lean ====
section
/-! SUPPORT. The EG unit's micro-operations over a well-formed configuration: none overflows on an instance that keeps its
invariant (40_eg_commands R106), and each keeps it. -/

namespace Sys2Proof.Machine

@[simp] theorem loadStage_erate (c : Cfg) (g : EgInst) (n : Fin 4) : (loadStage c g n).erate = g.erate := rfl

@[simp] theorem loadStage_elvl (c : Cfg) (g : EgInst) (n : Fin 4) : (loadStage c g n).elvl = g.elvl := rfl

@[simp] theorem loadStage_olbias (c : Cfg) (g : EgInst) (n : Fin 4) : (loadStage c g n).olbias = g.olbias := rfl

@[simp] theorem loadStage_cur (c : Cfg) (g : EgInst) (n : Fin 4) : (loadStage c g n).cur = g.cur := rfl

@[simp] theorem loadStage_keydown (c : Cfg) (g : EgInst) (n : Fin 4) : (loadStage c g n).keydown = g.keydown := rfl

@[simp] theorem loadStage_valid (c : Cfg) (g : EgInst) (n : Fin 4) : (loadStage c g n).valid = g.valid := rfl

@[simp] theorem loadStage_stage (c : Cfg) (g : EgInst) (n : Fin 4) : (loadStage c g n).stage = BitVec.ofFin n := rfl

@[simp] theorem stageIndex_loadStage (c : Cfg) (g : EgInst) (n : Fin 4) : stageIndex (loadStage c g n) = n := rfl

/-- `ADVANCE` beyond stage 3 writes nothing (R100). -/
theorem advance_beyond (c : Cfg) (g : EgInst) {n : Nat} (h : ¬ n < 4) : advance c g n = some g := by
  simp [advance, h]

/-- Whatever `ADVANCE` answers is the stage loaded, or beyond stage 3 the instance itself. -/
theorem advance_cases {c : Cfg} {g g' : EgInst} {n : Nat} (h : advance c g n = some g') :
    (∃ hn : n < 4, g' = loadStage c g ⟨n, hn⟩) ∨ (¬ n < 4 ∧ g' = g) := by
  unfold advance at h
  split at h
  · next hn =>
    split at h
    · cases h
      exact .inl ⟨hn, rfl⟩
    · cases h
  · next hn =>
    cases h
    exact .inr ⟨hn, rfl⟩

/-- TGT and INC of an instance that keeps its invariant, at its stage `n`. -/
theorem EgInst.Ok.loadedAt {c : Cfg} {g : EgInst} (h : g.Ok c) {n : Fin 4} (hn : stageIndex g = n) :
    g.tgt.toInt = target c g.elvl[n].toNat g.olbias.toNat ∧
      g.tgt = s32 (target c g.elvl[n].toNat g.olbias.toNat) ∧
      g.inc = s32 (rateinc c (qrate g.erate[n].toNat)) := by
  subst hn
  exact ⟨h.tgtOf, by rw [← h.tgtOf, s32_of_toInt], by rw [← h.incOf, s32_of_toInt]⟩

section
variable {c : Cfg} (hc : c.WellFormed)
include hc

theorem advance_loads {g : EgInst} (n : Fin 4) (hr : g.erate[n].toNat ≤ 99) (hl : g.elvl[n].toNat ≤ 99)
    (hb : (g.olbias.toNat : Int) ≤ olbiasMax c) : advance c g n.val = some (loadStage c g n) := by
  have h1 := targetParts_fit hc hl hb
  have h2 := qrateParts_fit hr
  have h3 := rateincParts_fit hc (qrate g.erate[n].toNat)
  have hp : allFit (advanceParts c g n) = true := by
    simp only [advanceParts, allFit_append, h1, h2, h3, Bool.and_self]
  simp [advance, n.isLt, hp]

/-- Loading a stage keeps the invariant: only the ranges of the registers it reads are needed. -/
theorem loadStage_ok {g : EgInst} (n : Fin 4) (hr : ∀ n : Fin 4, g.erate[n].toNat ≤ 99)
    (hl : ∀ n : Fin 4, g.elvl[n].toNat ≤ 99) (hb : (g.olbias.toNat : Int) ≤ olbiasMax c)
    (h0 : 0 ≤ g.cur.toInt) (h1 : g.cur.toInt ≤ Config.levelMax) (hk : g.keydown = false → n = 3) :
    (loadStage c g n).Ok c := by
  have ht := target_range hc (hl n) hb
  have hq := rateinc_range hc (qrate g.erate[n].toNat)
  have hmax : Config.levelMax = 285212672 := rfl
  have htgt : (loadStage c g n).tgt.toInt = target c g.elvl[n].toNat g.olbias.toNat :=
    s32_toInt ((fitsS32_iff _).2 (by omega))
  refine ⟨hr, hl, hb, h0, h1, htgt, s32_toInt ((fitsS32_iff _).2 (by omega)), ?_, ?_,
    fun hf => by rw [loadStage_stage, hk hf]; rfl⟩
  · intro hrise
    have : g.cur.toInt < target c g.elvl[n].toNat g.olbias.toNat := by
      simpa [loadStage, risingFlag] using hrise
    rw [htgt]
    exact le_of_lt this
  · intro hrise
    have : target c g.elvl[n].toNat g.olbias.toNat ≤ g.cur.toInt := by
      simpa [loadStage, risingFlag] using hrise
    rw [htgt]
    exact this

/-- The target of an instance that keeps its invariant lies in the range of 10_state R24. -/
theorem EgInst.Ok.tgtRange {g : EgInst} (h : g.Ok c) :
    shl Config.tgtMin c.tgtShl ≤ g.tgt.toInt ∧ 0 < g.tgt.toInt ∧ g.tgt.toInt ≤ c.riseCeil - 2 ^ c.riseShift ∧
      g.tgt.toInt ≤ Config.levelMax := by
  rw [h.tgtOf]
  exact target_range hc (h.levels _) h.bias

theorem EgInst.Ok.incRange {g : EgInst} (h : g.Ok c) : 1 ≤ g.inc.toInt ∧ g.inc.toInt ≤ 2147483647 := by
  rw [h.incOf]
  exact rateinc_range hc _

/-- The instance at its target keeps the invariant. -/
theorem EgInst.Ok.atTarget {g : EgInst} (h : g.Ok c) : ({ g with cur := g.tgt } : EgInst).Ok c :=
  have ht := h.tgtRange hc
  ⟨h.rates, h.levels, h.bias, le_of_lt ht.2.1, ht.2.2.2, h.tgtOf, h.incOf, fun _ => le_refl _, fun _ => le_refl _,
    h.released⟩

/-- Landing on the target: the next stage is loaded, or at stage 3 nothing but the level is written (R97, R100). -/
theorem land_eq {g : EgInst} (h : g.Ok c) :
    land c g = some (if hn : g.stage.toNat + 1 < 4 then
      loadStage c { g with cur := g.tgt } ⟨g.stage.toNat + 1, hn⟩ else { g with cur := g.tgt }) := by
  unfold land
  split
  · next hn =>
    exact advance_loads hc (g := { g with cur := g.tgt }) ⟨_, hn⟩ (h.rates _) (h.levels _) h.bias
  · next hn => exact advance_beyond c _ hn

theorem land_ok {g : EgInst} (h : g.Ok c) : ∃ g', land c g = some g' ∧ g'.Ok c := by
  rw [land_eq hc h]
  refine ⟨_, rfl, ?_⟩
  split
  · next hn =>
    refine loadStage_ok hc _ h.rates h.levels h.bias (h.atTarget hc).curLow (h.atTarget hc).curHigh fun hf => ?_
    have h3 : g.stage = 3 := h.released hf
    exact absurd hn (by rw [h3]; decide)
  · exact h.atTarget hc

/-- While rising, the level `c0` lies between RISE_FLOOR and the ceiling, and `c1` fits (R106). -/
theorem riseTo_range {g : EgInst} (h : g.Ok c) (hr : g.rising = true) :
    c.riseFloor ≤ riseFrom c g ∧ g.cur.toInt ≤ riseFrom c g ∧ riseFrom c g ≤ c.riseCeil ∧
      riseFrom c g ≤ riseTo c g ∧ riseTo c g ≤ 2147483647 := by
  have ht := h.tgtRange hc
  have hi := h.incRange hc
  have hp : (0 : Int) < 2 ^ c.riseShift := by positivity
  have hcur := h.below hr
  have hfl := hc.floorBelowCeil
  have hceil : riseFrom c g ≤ c.riseCeil := max_le (by omega) (by omega)
  have hk : 0 ≤ shr (c.riseCeil - riseFrom c g) c.riseShift := shr_nonneg _ (by omega)
  have hfit := hc.riseFits g.elvl[stageIndex g].toNat g.olbias.toNat (qrate g.erate[stageIndex g].toNat) g.cur.toInt
    (h.levels _) h.bias h.curLow (by rw [← h.tgtOf]; exact hcur)
  rw [← h.incOf] at hfit
  refine ⟨le_max_right _ _, le_max_left _ _, hceil, ?_, hfit⟩
  have := mul_nonneg hk (by omega : 0 ≤ g.inc.toInt)
  unfold riseTo
  omega

theorem riseParts_fit {g : EgInst} (h : g.Ok c) (hr : g.rising = true) : allFit (riseParts c g) = true := by
  have hrg := riseTo_range hc h hr
  have h0 := hc.floorNonneg
  have hceil := hc.ceilBound
  have hmax : Config.levelMax = 285212672 := rfl
  have hd : 0 ≤ c.riseCeil - riseFrom c g := by omega
  have hk := shr_nonneg c.riseShift hd
  have hk' := shr_le c.riseShift hd
  have hto : riseTo c g = riseFrom c g + shr (c.riseCeil - riseFrom c g) c.riseShift * g.inc.toInt := rfl
  simp only [riseParts, allFit_cons, allFit_nil, Bool.and_true, Bool.and_eq_true, fitsS32_iff]
  omega

theorem fallTo_fits {g : EgInst} (h : g.Ok c) : allFit [fallTo g] = true := by
  have hi := h.incRange hc
  have h0 := h.curLow
  have h1 := h.curHigh
  have hmax : Config.levelMax = 285212672 := rfl
  simp only [allFit_cons, allFit_nil, Bool.and_true, fitsS32_iff, fallTo]
  omega

/-- The rising update on an instance that keeps its invariant (R97). -/
theorem rise_eq {g : EgInst} (h : g.Ok c) (hr : g.rising = true) :
    rise c g = if g.tgt.toInt ≤ riseTo c g then land c g else some { g with cur := s32 (riseTo c g) } := by
  simp [rise, riseParts_fit hc h hr]

/-- The falling update on an instance that keeps its invariant (R98). -/
theorem fall_eq {g : EgInst} (h : g.Ok c) :
    fall c g = if fallTo g ≤ g.tgt.toInt then land c g else some { g with cur := s32 (fallTo g) } := by
  simp [fall, fallTo_fits hc h]

omit hc in
/-- A level between the old one and the target keeps the invariant. -/
theorem EgInst.Ok.withCur {g : EgInst} (h : g.Ok c) {x : Int} (h0 : 0 ≤ x) (h1 : x ≤ Config.levelMax)
    (hb : g.rising = true → x ≤ g.tgt.toInt) (ha : g.rising = false → g.tgt.toInt ≤ x) :
    ({ g with cur := s32 x } : EgInst).Ok c := by
  have hmax : Config.levelMax = 285212672 := rfl
  have hv : (s32 x).toInt = x := s32_toInt ((fitsS32_iff _).2 (by omega))
  refine ⟨h.rates, h.levels, h.bias, ?_, ?_, h.tgtOf, h.incOf, fun hr => ?_, fun hr => ?_,
    h.released⟩
  · show 0 ≤ (s32 x).toInt
    omega
  · show (s32 x).toInt ≤ Config.levelMax
    omega
  · show (s32 x).toInt ≤ g.tgt.toInt
    rw [hv]
    exact hb hr
  · show g.tgt.toInt ≤ (s32 x).toInt
    rw [hv]
    exact ha hr

theorem rise_ok {g : EgInst} (h : g.Ok c) (hr : g.rising = true) : ∃ g', rise c g = some g' ∧ g'.Ok c := by
  rw [rise_eq hc h hr]
  split
  · exact land_ok hc h
  · have hrg := riseTo_range hc h hr
    have ht := h.tgtRange hc
    have hfl := hc.floorNonneg
    exact ⟨_, rfl, h.withCur (by omega) (by omega) (fun _ => by omega) (fun hf => absurd hf (by simp [hr]))⟩

theorem fall_ok {g : EgInst} (h : g.Ok c) (hr : g.rising = false) : ∃ g', fall c g = some g' ∧ g'.Ok c := by
  rw [fall_eq hc h]
  split
  · exact land_ok hc h
  · have hi := h.incRange hc
    have ht := h.tgtRange hc
    have hcur := h.curHigh
    have hft : fallTo g = g.cur.toInt - g.inc.toInt := rfl
    exact ⟨_, rfl, h.withCur (by omega) (by omega) (fun hf => absurd hf (by simp [hr])) (fun _ => by omega)⟩

/-- A sample on an instance that keeps its invariant takes effect and keeps it (R106, 10_state R24). -/
theorem sampleUpdate_ok {g : EgInst} (h : g.Ok c) : ∃ g', sampleUpdate c g = some g' ∧ g'.Ok c := by
  unfold sampleUpdate
  split
  · split
    · next hr => exact rise_ok hc h hr
    · next hr => exact fall_ok hc h (by simpa using hr)
  · exact ⟨g, rfl, h⟩

end

end Sys2Proof.Machine
end

