-- ==== Sys2Proof/Laws/Fm.lean ====
section
/-! SUPPORT. What the operations of the FM core do: the topology test, the advance of a phase, one modulator's pass over the
buffer, and the carrier sum (42_fm_core R150 to R159). -/

namespace Sys2Proof.Machine

theorem mem_indices : ∀ i : Fin 6, i ∈ indices := by decide

/-- The topology test is R152. -/
theorem topologyOk_iff (top : BitVec 42) :
    topologyOk top = true ↔ (∀ c m : Fin 6, modulates top c m = true → c < m) ∧ 1 ≤ carrierCount top := by
  simp only [topologyOk, Bool.and_eq_true, List.all_eq_true, Bool.or_eq_true, Bool.not_eq_true', decide_eq_true_eq]
  refine and_congr_left fun _ => ⟨fun h c m hm => ?_, fun h c _ m _ => ?_⟩
  · exact (h c (mem_indices c) m (mem_indices m)).resolve_left (by simp [hm])
  · cases hm : modulates top c m with
    | true => exact .inr (h c m hm)
    | false => exact .inl rfl

/-- Every topology of the machine's configuration is well formed (00_scope R8 (g)). -/
theorem selected_ok (alg : BitVec 5) : topologyOk (selected Config.cfg alg) = true :=
  Config.cfg_wellFormed.topologies _

/-- The topology of algorithm id 31 (R151, R162). -/
theorem selected_last : selected Config.cfg 31 = 0x3F000000000 := Config.cfg_wellFormed.lastTopology

/-- A phase right after `FM.INIT` (10_state R41). -/
theorem fmLoaded_phase_get (alg : BitVec 8) (sr : NUM) (ratio phase0 : Vector NUM 6) (i : Fin 6) :
    (fmLoaded alg sr ratio phase0).phase[i] = .wrap phase0[i] := by
  simp [fmLoaded]

/-- Step 1 at one index. -/
theorem advancedPhases_get (fm : FmCore) (f : NUM) (i : Fin 6) :
    (advancedPhases fm f)[i] =
      .wrap (.add fm.phase[i] (.mul (.mul (.mul .twoPi (.div (.int 1) fm.sr)) f) fm.ratio[i])) := by
  simp [advancedPhases]

/-- What one modulator adds to a carrier that reads `x`, the modulator's own phase being `y`. -/
def modulated (g x y : NUM) : NUM := .add x (.mul (.mul g (.sin y)) .twoPi)

theorem modulateOne_get (top : BitVec 42) (g w : Vector NUM 6) (m c i : Fin 6) :
    (modulateOne top g m w c)[i] =
      if i = c ∧ modulates top c m = true then modulated g[m] w[i] w[m] else w[i] := by
  unfold modulateOne modulated
  by_cases hm : modulates top c m = true
  · rw [if_pos hm]
    by_cases hi : i = c
    · subst hi
      simp [hm]
    · have : c.val ≠ i.val := fun h => hi (Fin.ext h.symm)
      simp [hi, this]
  · simp [hm]

/-- One modulator's pass over some distinct carriers, where it does not modulate itself. -/
theorem foldl_modulateOne_get {top : BitVec 42} (g w : Vector NUM 6) {m : Fin 6} (hm : modulates top m m = false)
    (i : Fin 6) (cs : List (Fin 6)) (hd : cs.Nodup) :
    (cs.foldl (modulateOne top g m) w)[i] =
      if i ∈ cs ∧ modulates top i m = true then modulated g[m] w[i] w[m] else w[i] := by
  induction cs generalizing w with
  | nil => simp
  | cons c cs ih =>
    have hc := List.nodup_cons.1 hd
    have hself : (modulateOne top g m w c)[m] = w[m] := by
      rw [modulateOne_get]
      refine if_neg fun h => ?_
      rw [h.1] at hm
      rw [h.1] at h
      rw [h.2] at hm
      cases hm
    rw [List.foldl_cons, ih _ hc.2, hself, modulateOne_get]
    by_cases hi : i = c
    · subst hi
      simp [hc.1]
    · simp [hi]

/-- One modulator's pass (R157): each carrier the topology gives it gets its term, nothing else changes. -/
theorem modulateAll_get {top : BitVec 42} (g w : Vector NUM 6) {m : Fin 6} (hm : modulates top m m = false)
    (i : Fin 6) :
    (modulateAll top g w m)[i] = if modulates top i m = true then modulated g[m] w[i] w[m] else w[i] := by
  rw [modulateAll, foldl_modulateOne_get g w hm i indices (by decide)]
  simp [mem_indices i]

/-- With no modulation step 3 changes nothing. -/
theorem modulationPass_of_none {top : BitVec 42} (h : ∀ c m : Fin 6, modulates top c m = false) (g w : Vector NUM 6) :
    modulationPass top g w = w := by
  have hone : ∀ (w : Vector NUM 6) (m : Fin 6), modulateAll top g w m = w := by
    intro w m
    ext1 i hi
    exact (modulateAll_get g w (h m m) ⟨i, hi⟩).trans (if_neg (by simp [h]))
  have hall : ∀ (l : List (Fin 6)) (w : Vector NUM 6), l.foldl (modulateAll top g) w = w := by
    intro l
    induction l with
    | nil => exact fun _ => rfl
    | cons m l ih => exact fun w => (ih _).trans (hone w m)
  exact hall _ w

/-- Step 3 is the passes of modulators 5, 4, 3, 2, 1, 0 in that order. -/
theorem modulationPass_eq (top : BitVec 42) (g w : Vector NUM 6) :
    modulationPass top g w =
      modulateAll top g (modulateAll top g (modulateAll top g (modulateAll top g (modulateAll top g
        (modulateAll top g w 5) 4) 3) 2) 1) 0 := rfl

section
variable (env : Nat → ℝ) {top : BitVec 42} (hok : topologyOk top = true)
include hok

theorem modulates_eq_false {c m : Fin 6} (h : ¬ c < m) : modulates top c m = false := by
  by_contra hc
  exact h (((topologyOk_iff top).1 hok).1 c m (by simpa using hc))

/-- One modulator's pass over the reals: what it adds to index `i`. -/
theorem realValue_modulateAll (g w : Vector NUM 6) (m i : Fin 6) :
    realValue env (modulateAll top g w m)[i] = realValue env w[i] +
      2 * Real.pi * (if i < m ∧ modulates top i m = true then
        reals env g m * Real.sin (realValue env w[m]) else 0) := by
  rw [modulateAll_get g w (modulates_eq_false hok (lt_irrefl m))]
  by_cases h : modulates top i m = true
  · rw [if_pos h, if_pos ⟨((topologyOk_iff top).1 hok).1 i m h, h⟩, modulated, realValue_add, realValue_mul,
      realValue_mul, realValue_sin, realValue_twoPi, reals]
    ring
  · rw [if_neg h, if_neg fun hm => h hm.2]
    ring

/-- A modulator leaves every index that is not below it. -/
theorem realValue_modulateAll_above (g w : Vector NUM 6) {m i : Fin 6} (h : ¬ i < m) :
    realValue env (modulateAll top g w m)[i] = realValue env w[i] := by
  rw [realValue_modulateAll env hok, if_neg fun hm => h hm.1]
  ring

/-- Step 3 over the reals (R160): every modulation reads the final working phase of its modulator. -/
theorem realValue_modulationPass (g w : Vector NUM 6) (i : Fin 6) :
    realValue env (modulationPass top g w)[i] = realValue env w[i] +
      modulationOf top (reals env g) (fun m => realValue env (modulationPass top g w)[m]) i := by
  have up := @realValue_modulateAll_above env top hok g
  have ad := realValue_modulateAll env hok g
  unfold modulationOf
  rw [Fin.sum_univ_six, modulationPass_eq]
  generalize h1 : modulateAll top g w 5 = w1
  generalize h2 : modulateAll top g w1 4 = w2
  generalize h3 : modulateAll top g w2 3 = w3
  generalize h4 : modulateAll top g w3 2 = w4
  generalize h5 : modulateAll top g w4 1 = w5
  generalize h6 : modulateAll top g w5 0 = w6
  have f0 : realValue env w6[(0 : Fin 6)] = realValue env w5[(0 : Fin 6)] := by rw [← h6, up _ (by decide)]
  have f1 : realValue env w6[(1 : Fin 6)] = realValue env w4[(1 : Fin 6)] := by
    rw [← h6, up _ (by decide), ← h5, up _ (by decide)]
  have f2 : realValue env w6[(2 : Fin 6)] = realValue env w3[(2 : Fin 6)] := by
    rw [← h6, up _ (by decide), ← h5, up _ (by decide), ← h4, up _ (by decide)]
  have f3 : realValue env w6[(3 : Fin 6)] = realValue env w2[(3 : Fin 6)] := by
    rw [← h6, up _ (by decide), ← h5, up _ (by decide), ← h4, up _ (by decide), ← h3, up _ (by decide)]
  have f4 : realValue env w6[(4 : Fin 6)] = realValue env w1[(4 : Fin 6)] := by
    rw [← h6, up _ (by decide), ← h5, up _ (by decide), ← h4, up _ (by decide), ← h3, up _ (by decide), ← h2,
      up _ (by decide)]
  have f5 : realValue env w6[(5 : Fin 6)] = realValue env w[(5 : Fin 6)] := by
    rw [← h6, up _ (by decide), ← h5, up _ (by decide), ← h4, up _ (by decide), ← h3, up _ (by decide), ← h2,
      up _ (by decide), ← h1, up _ (by decide)]
  beta_reduce
  rw [f0, f1, f2, f3, f4, f5, ← h6, ad w5, ← h5, ad w4, ← h4, ad w3, ← h3, ad w2, ← h2, ad w1, ← h1, ad w]
  ring

end

/-- The real value of the carrier sum: a sum over the carriers (R158). -/
theorem realValue_sumOf (env : Nat → ℝ) (xs : List NUM) :
    realValue env (sumOf xs) = (xs.map (realValue env)).sum := by
  cases xs with
  | nil => simp [sumOf, realValue_int]
  | cons x xs => rw [sumOf, realValue_foldl_add, List.map_cons, List.sum_cons]

theorem realValue_carrierSum (env : Nat → ℝ) (top : BitVec 42) (g w : Vector NUM 6) :
    realValue env (carrierSum top g w) =
      ((carriers top).map fun c => realValue env g[c] * Real.sin (realValue env w[c])).sum := by
  rw [carrierSum, realValue_sumOf, List.map_map]
  rfl

/-- A sum over the carriers is a sum over all six indices. -/
theorem carriers_sum (top : BitVec 42) (f : Fin 6 → ℝ) :
    ((carriers top).map f).sum = ∑ c : Fin 6, if isCarrier top c = true then f c else 0 := by
  have h : ∀ l : List (Fin 6), ((l.filter (isCarrier top)).map f).sum =
      (l.map fun c => if isCarrier top c = true then f c else 0).sum := by
    intro l
    induction l with
    | nil => rfl
    | cons c cs ih =>
      by_cases hc : isCarrier top c = true <;> simp [hc, ih]
  rw [carriers, h, Fin.sum_univ_six]
  simp [indices, add_assoc]

/-- The working phases of step 3 depend only on the real values of the phases it starts from. -/
theorem realValue_modulationPass_congr (env : Nat → ℝ) {top : BitVec 42} (hok : topologyOk top = true)
    (g : Vector NUM 6) {p q : Vector NUM 6} (h : ∀ i : Fin 6, realValue env p[i] = realValue env q[i]) (i : Fin 6) :
    realValue env (modulationPass top g p)[i] = realValue env (modulationPass top g q)[i] := by
  suffices hn : ∀ n (i : Fin 6), 5 - i.val ≤ n →
      realValue env (modulationPass top g p)[i] = realValue env (modulationPass top g q)[i] from hn 5 i (by omega)
  intro n
  induction n using Nat.strong_induction_on with
  | _ n ih =>
    intro i hi
    rw [realValue_modulationPass env hok, realValue_modulationPass env hok, h i]
    unfold modulationOf
    refine congrArg _ (congrArg _ (Finset.sum_congr rfl fun m _ => ?_))
    by_cases hc : i < m ∧ modulates top i m = true
    · have hlt : i.val < m.val := hc.1
      rw [if_pos hc, if_pos hc]
      exact congrArg (fun x => reals env g m * Real.sin x) (ih (5 - m.val) (by omega) m le_rfl)
    · rw [if_neg hc, if_neg hc]

/-- The sample depends only on the real values of the advanced phases (R174). -/
theorem realValue_sampleRaw_congr (env : Nat → ℝ) {top : BitVec 42} (hok : topologyOk top = true)
    (g : Vector NUM 6) {p q : Vector NUM 6} (h : ∀ i : Fin 6, realValue env p[i] = realValue env q[i]) :
    realValue env (sampleRaw top g p) = realValue env (sampleRaw top g q) := by
  rw [sampleRaw, sampleRaw, realValue_carrierSum, realValue_carrierSum]
  refine congrArg _ (List.map_congr_left fun c _ => ?_)
  rw [realValue_modulationPass_congr env hok g h c]

theorem realValue_normalised (env : Nat → ℝ) (top : BitVec 42) (y : NUM) :
    realValue env (normalised top y) = realValue env y / (4 * (carrierCount top : ℝ)) := by
  rw [normalised, realValue_div, realValue_int]
  push_cast
  rfl

/-- `FM.STEP` on a core that is not faulted and holds a value (R154). -/
theorem fmStep_done {f : NUM} {g : Vector NUM 6} {s : State} (hs : s.fault = .none) (hv : s.fm.valid = true) :
    exec (.fmStep f g) s = .next (fmStepped Config.cfg f g s) :=
  exec_done hs (firstFailing_eq_none (by simp [checksOf, hv])) rfl

end Sys2Proof.Machine
end

