-- ==== Sys2Proof/Laws/PerInstr.lean ====
section
/-! SUPPORT. Per instruction: the command word of a well-formed command decodes to that command's own row and instance
index (30_encoding R72 to R75). -/

namespace Sys2Proof.Laws

/-- The row of a command (spec/opcode_table.json). -/
def opOf : Instr → Op
  | .egNop _ => .egNop
  | .egInit _ _ _ _ => .egInit
  | .egKeyoff _ => .egKeyoff
  | .egKeyon _ => .egKeyon
  | .egSample _ => .egSample
  | .laScaleol _ => .laScaleol
  | .laScalevel _ _ => .laScalevel
  | .laOlbias _ _ _ => .laOlbias
  | .laQrate _ => .laQrate
  | .laRateinc _ => .laRateinc
  | .laTarget _ _ => .laTarget
  | .laGain _ => .laGain
  | .laRatio _ _ _ => .laRatio
  | .fmInit _ _ _ _ => .fmInit
  | .fmStep _ _ => .fmStep

/-- The OPR field of a command: the instance of an EG command, 000 otherwise (30_encoding R71). -/
def indexOf : Instr → BitVec 3
  | .egNop e => e
  | .egInit e _ _ _ => e
  | .egKeyoff e => e
  | .egKeyon e => e
  | .egSample e => e
  | .laScaleol _ => 0
  | .laScalevel _ _ => 0
  | .laOlbias _ _ _ => 0
  | .laQrate _ => 0
  | .laRateinc _ => 0
  | .laTarget _ _ => 0
  | .laGain _ => 0
  | .laRatio _ _ _ => 0
  | .fmInit _ _ _ _ => 0
  | .fmStep _ _ => 0

namespace WordDecodes

def Statement (i : Instr) : Prop := i.WellFormed → decodeWord i.word = .ok (opOf i, indexOf i)

theorem egNop_word : ∀ e : BitVec 3, e ≤ 5 → decodeWord (wordOf 0 e 0) = .ok (.egNop, e) := by decide

theorem egInit_word : ∀ e : BitVec 3, e ≤ 5 → decodeWord (wordOf 0 e 1) = .ok (.egInit, e) := by decide

theorem egKeyoff_word : ∀ e : BitVec 3, e ≤ 5 → decodeWord (wordOf 0 e 2) = .ok (.egKeyoff, e) := by decide

theorem egKeyon_word : ∀ e : BitVec 3, e ≤ 5 → decodeWord (wordOf 0 e 3) = .ok (.egKeyon, e) := by decide

theorem egSample_word : ∀ e : BitVec 3, e ≤ 5 → decodeWord (wordOf 0 e 4) = .ok (.egSample, e) := by decide

theorem egNop (e : BitVec 3) : Statement (.egNop e) := fun h =>
  egNop_word e (of_decide_eq_true h)

theorem egInit (e : BitVec 3) (r l : Vector (BitVec 7) 4) (b : BitVec 13) : Statement (.egInit e r l b) := fun h =>
  egInit_word e (of_decide_eq_true h)

theorem egKeyoff (e : BitVec 3) : Statement (.egKeyoff e) := fun h =>
  egKeyoff_word e (of_decide_eq_true h)

theorem egKeyon (e : BitVec 3) : Statement (.egKeyon e) := fun h =>
  egKeyon_word e (of_decide_eq_true h)

theorem egSample (e : BitVec 3) : Statement (.egSample e) := fun h =>
  egSample_word e (of_decide_eq_true h)

theorem laScaleol (l : BitVec 7) : Statement (.laScaleol l) := fun _ =>
  (by decide : decodeWord (wordOf 1 0 0) = .ok (.laScaleol, 0))

theorem laScalevel (v : BitVec 16) (s : BitVec 8) : Statement (.laScalevel v s) := fun _ =>
  (by decide : decodeWord (wordOf 1 0 1) = .ok (.laScalevel, 0))

theorem laOlbias (ol : BitVec 7) (v : BitVec 16) (s : BitVec 8) : Statement (.laOlbias ol v s) := fun _ =>
  (by decide : decodeWord (wordOf 1 0 2) = .ok (.laOlbias, 0))

theorem laQrate (r : BitVec 7) : Statement (.laQrate r) := fun _ =>
  (by decide : decodeWord (wordOf 1 0 3) = .ok (.laQrate, 0))

theorem laRateinc (q : BitVec 8) : Statement (.laRateinc q) := fun _ =>
  (by decide : decodeWord (wordOf 1 0 4) = .ok (.laRateinc, 0))

theorem laTarget (l : BitVec 7) (b : BitVec 13) : Statement (.laTarget l b) := fun _ =>
  (by decide : decodeWord (wordOf 1 0 5) = .ok (.laTarget, 0))

theorem laGain (level : S32) : Statement (.laGain level) := fun _ =>
  (by decide : decodeWord (wordOf 1 0 6) = .ok (.laGain, 0))

theorem laRatio (c fn t : BitVec 8) : Statement (.laRatio c fn t) := fun _ =>
  (by decide : decodeWord (wordOf 1 0 7) = .ok (.laRatio, 0))

theorem fmInit (alg : BitVec 8) (sr : NumOperand) (ratio : Vector NumOperand 6) (phase0 : Vector NUM 6) :
    Statement (.fmInit alg sr ratio phase0) := fun _ =>
  (by decide : decodeWord (wordOf 2 0 1) = .ok (.fmInit, 0))

theorem fmStep (f : NUM) (g : Vector NUM 6) : Statement (.fmStep f g) := fun _ =>
  (by decide : decodeWord (wordOf 2 0 4) = .ok (.fmStep, 0))

/-- Every well-formed command's word decodes to its own row and index. -/
theorem all (i : Instr) : Statement i := by
  cases i with
  | egNop e => exact WordDecodes.egNop e
  | egInit e r l b => exact WordDecodes.egInit e r l b
  | egKeyoff e => exact WordDecodes.egKeyoff e
  | egKeyon e => exact WordDecodes.egKeyon e
  | egSample e => exact WordDecodes.egSample e
  | laScaleol l => exact WordDecodes.laScaleol l
  | laScalevel v s => exact WordDecodes.laScalevel v s
  | laOlbias ol v s => exact WordDecodes.laOlbias ol v s
  | laQrate r => exact WordDecodes.laQrate r
  | laRateinc q => exact WordDecodes.laRateinc q
  | laTarget l b => exact WordDecodes.laTarget l b
  | laGain level => exact WordDecodes.laGain level
  | laRatio c fn t => exact WordDecodes.laRatio c fn t
  | fmInit alg sr ratio phase0 => exact WordDecodes.fmInit alg sr ratio phase0
  | fmStep f g => exact WordDecodes.fmStep f g

end WordDecodes

/-- Rebuilding a command from its row, its index and its ports gives it back (30_encoding R76, R77). -/
theorem command_of_ports (i : Instr) : (opOf i).command (indexOf i) i.ports = i := by
  cases i <;> rfl

end Sys2Proof.Laws
end

