-- ==== Sys2Proof/Laws/Runs.lean ====
section
/-! SUPPORT. Runs of commands, and what an update of the state asks for to keep the invariant. -/

namespace Sys2Proof.Machine

theorem runAll_nil (s : State) : runAll [] s = .next s := rfl

theorem runAll_cons {i : Instr} {s t : State} (rest : List Instr) (h : exec i s = .next t) :
    runAll (i :: rest) s = runAll rest t := by
  simp [runAll, h]

/-- A run of two lists is the run of the first and then of the second. -/
theorem runAll_append {a b : List Instr} {s t : State} (h : runAll a s = .next t) :
    runAll (a ++ b) s = runAll b t := by
  induction a generalizing s with
  | nil =>
    cases h
    rfl
  | cons i a ih =>
    rw [List.cons_append, runAll]
    rw [runAll] at h
    split at h
    · exact ih h
    · cases h
    · cases h

theorem State.Inv.setEg {s : State} (h : s.Inv) (e : BitVec 3) {g : EgInst} (hg : g.valid = true → g.Ok Config.cfg) :
    (s.setEg e g).Inv := by
  refine ⟨fun e' he' hv => ?_, h.fm⟩
  by_cases hee : e' = e
  · subst hee
    rw [State.getEg_setEg_same _ _ _ he'] at hv ⊢
    exact hg hv
  · rw [State.getEg_setEg_ne _ _ _ _ hee] at hv ⊢
    exact h.eg e' he' hv

theorem State.Inv.setFm {s : State} (h : s.Inv) {fm : FmCore} (hf : fm.valid = true → fm.Ok) : (s.setFm fm).Inv :=
  ⟨h.eg, hf⟩

theorem State.Inv.drive {s : State} (h : s.Inv) (r : Result) : (s.drive r).Inv := ⟨h.eg, h.fm⟩

theorem State.Inv.raise {s : State} (h : s.Inv) (k : Cause) (cw : Byte) : (Machine.raise k cw s).Inv := ⟨h.eg, h.fm⟩

theorem State.Inv.withPending {s : State} (h : s.Inv) (p : List Input) : ({ s with pending := p } : State).Inv :=
  ⟨h.eg, h.fm⟩

end Sys2Proof.Machine
end

