-- ==== Sys2Proof/Laws/Samples.lean ====
section
/-! SUPPORT. What one `EG.SAMPLE` can do to an instance that keeps its invariant: hold, land on the target, or come strictly
nearer to it (40_eg_commands R96 to R100, R104, R105). -/

namespace Sys2Proof.Machine

theorem active_of {g : EgInst} (h : g.stage.toNat ≤ 2 ∨ g.keydown = false) : active g = true := by
  have := g.stage.isLt
  by_cases h2 : g.stage.toNat ≤ 2
  · simp [active, h2]
  · have h3 : g.stage.toNat = 3 := by omega
    simp [active, h3, h.resolve_left h2]

/-- Sustain: an instance with the key down in stage 3 is not active (R99). -/
theorem sampleUpdate_holds (c : Cfg) {g : EgInst} (h : g.stage = 3) (hk : g.keydown = true) :
    sampleUpdate c g = some g := by
  simp [sampleUpdate, active, h, hk]

/-- Stage `n + 1` as an index, where there is one. -/
theorem stageIndex_succ {g : EgInst} (h : g.stage.toNat + 1 < 4) :
    (⟨g.stage.toNat + 1, h⟩ : Fin 4) = stageIndex g + 1 := by
  apply Fin.ext
  rw [Fin.val_add]
  show g.stage.toNat + 1 = (g.stage.toNat + 1) % 4
  omega

/-- What landing writes below stage 3: the level, and the next stage with RISING comparing the new target with the old. -/
def landed (c : Cfg) (g : EgInst) : EgInst := loadStage c { g with cur := g.tgt } (stageIndex g + 1)

section
variable {c : Cfg} (hc : c.WellFormed)
include hc

theorem land_below {g : EgInst} (h : g.Ok c) (h2 : g.stage.toNat ≤ 2) : land c g = some (landed c g) := by
  have hn : g.stage.toNat + 1 < 4 := by omega
  rw [land_eq hc h, dif_pos hn, stageIndex_succ hn]
  rfl

theorem land_last {g : EgInst} (h : g.Ok c) (h3 : ¬ g.stage.toNat ≤ 2) : land c g = some { g with cur := g.tgt } := by
  rw [land_eq hc h, dif_neg (by omega)]

/-- A rising update reaches the target exactly where `c1` does. -/
theorem sampleUpdate_rising {g : EgInst} (h : g.Ok c) (ha : g.stage.toNat ≤ 2 ∨ g.keydown = false)
    (hr : g.rising = true) :
    sampleUpdate c g =
      if g.tgt.toInt ≤ riseTo c g then land c g else some { g with cur := s32 (riseTo c g) } := by
  rw [sampleUpdate, if_pos (active_of ha), if_pos hr, rise_eq hc h hr]

theorem sampleUpdate_falling {g : EgInst} (h : g.Ok c) (ha : g.stage.toNat ≤ 2 ∨ g.keydown = false)
    (hr : g.rising = false) :
    sampleUpdate c g = if fallTo g ≤ g.tgt.toInt then land c g else some { g with cur := s32 (fallTo g) } := by
  rw [sampleUpdate, if_pos (active_of ha), if_neg (by simp [hr]), fall_eq hc h]

/-- Short of the target a rising level grows by at least the increment (R104). -/
theorem riseTo_grows {g : EgInst} (h : g.Ok c) (hr : g.rising = true) (hs : ¬ g.tgt.toInt ≤ riseTo c g) :
    g.cur.toInt + g.inc.toInt ≤ riseTo c g := by
  have ht := h.tgtRange hc
  have hi := h.incRange hc
  have hrg := riseTo_range hc h hr
  have hk : 1 ≤ shr (c.riseCeil - riseFrom c g) c.riseShift := one_le_shr _ (by omega)
  have hm : 1 * g.inc.toInt ≤ shr (c.riseCeil - riseFrom c g) c.riseShift * g.inc.toInt :=
    mul_le_mul_of_nonneg_right hk (by omega)
  unfold riseTo
  omega

/-- An active sample lands on the target, or writes the level alone, strictly nearer to the target and on the same side
(R104, R105). -/
theorem sampleUpdate_moves {g : EgInst} (h : g.Ok c) (ha : g.stage.toNat ≤ 2 ∨ g.keydown = false) :
    sampleUpdate c g = land c g ∨
      ∃ x : Int, (s32 x).toInt = x ∧ sampleUpdate c g = some { g with cur := s32 x } ∧
        (g.rising = true → g.cur.toInt < x ∧ x < g.tgt.toInt) ∧
        (g.rising = false → x < g.cur.toInt ∧ g.tgt.toInt < x) := by
  have ht := h.tgtRange hc
  have hi := h.incRange hc
  have hmax : Config.levelMax = 285212672 := rfl
  have hcur := h.curHigh
  have hcur0 := h.curLow
  by_cases hr : g.rising = true
  · rw [sampleUpdate_rising hc h ha hr]
    split
    · exact .inl rfl
    · next hs =>
      have hg := riseTo_grows hc h hr hs
      have hrg := riseTo_range hc h hr
      exact .inr ⟨riseTo c g, s32_toInt ((fitsS32_iff _).2 (by omega)), rfl, fun _ => by omega,
        fun hf => absurd hf (by simp [hr])⟩
  · have hr : g.rising = false := by simpa using hr
    rw [sampleUpdate_falling hc h ha hr]
    split
    · exact .inl rfl
    · next hs =>
      have hf : fallTo g = g.cur.toInt - g.inc.toInt := rfl
      exact .inr ⟨fallTo g, s32_toInt ((fitsS32_iff _).2 (by omega)), rfl,
        fun hf => absurd hf (by simp [hr]), fun _ => by omega⟩

end

/-- A sample of a valid instance whose update exists writes it and shows its level. -/
theorem egSample_done {e : BitVec 3} {s : State} {g : EgInst} (hs : s.fault = .none) (he : e.toNat < 6)
    (hv : (s.getEg e).valid = true) (hg : sampleUpdate Config.cfg (s.getEg e) = some g) :
    exec (.egSample e) s = .next ((s.setEg e g).drive (.levelOut e g.cur)) :=
  exec_done hs (firstFailing_eq_none (by simp [checksOf, badInstance_eq_false he, hv])) (by simp [effectOf, hg])

/-- No update of a sample writes the parameters, KEYDOWN or VALID. -/
theorem sampleUpdate_keeps {c : Cfg} {g g' : EgInst} (h : sampleUpdate c g = some g') :
    g'.erate = g.erate ∧ g'.elvl = g.elvl ∧ g'.olbias = g.olbias ∧ g'.keydown = g.keydown ∧ g'.valid = g.valid := by
  have hl : ∀ g', land c g = some g' →
      g'.erate = g.erate ∧ g'.elvl = g.elvl ∧ g'.olbias = g.olbias ∧ g'.keydown = g.keydown ∧ g'.valid = g.valid := by
    intro g' h
    rcases advance_cases h with ⟨_, rfl⟩ | ⟨_, rfl⟩ <;> exact ⟨rfl, rfl, rfl, rfl, rfl⟩
  unfold sampleUpdate rise fall at h
  split at h
  · split at h <;> split at h
    · split at h
      · exact hl g' h
      · cases h
        exact ⟨rfl, rfl, rfl, rfl, rfl⟩
    · cases h
    · split at h
      · exact hl g' h
      · cases h
        exact ⟨rfl, rfl, rfl, rfl, rfl⟩
    · cases h
  · cases h
    exact ⟨rfl, rfl, rfl, rfl, rfl⟩

/-- A sample leaves the stage, or from stage 0, 1 or 2 moves it to the next (R109). -/
theorem sampleUpdate_stage {c : Cfg} {g g' : EgInst} (h : sampleUpdate c g = some g') :
    g'.stage = g.stage ∨ (g.stage.toNat ≤ 2 ∧ g'.stage.toNat = g.stage.toNat + 1) := by
  have hl : ∀ g', land c g = some g' →
      g'.stage = g.stage ∨ (g.stage.toNat ≤ 2 ∧ g'.stage.toNat = g.stage.toNat + 1) := by
    intro g' h
    rcases advance_cases h with ⟨hn, rfl⟩ | ⟨_, rfl⟩
    · exact .inr ⟨by omega, rfl⟩
    · exact .inl rfl
  unfold sampleUpdate rise fall at h
  split at h
  · split at h <;> split at h
    · split at h
      · exact hl g' h
      · cases h
        exact .inl rfl
    · cases h
    · split at h
      · exact hl g' h
      · cases h
        exact .inl rfl
    · cases h
  · cases h
    exact .inl rfl

end Sys2Proof.Machine
end

