-- ==== Sys2Proof/Tests/Slice0.lean ====
section
/-! SUPPORT. Tests. The WellFormed smoke, words written out bit by bit from 30_encoding R73 to R75, single steps against the
spec's own vectors (95_test_vectors, over CFG_REF where the vector says so), and for every obligation with hypotheses a
state and operands that meet all of them. -/

namespace Sys2Proof.Tests

open Sys2Proof Sys2Proof.Machine

/-! WellFormed: an EG command with index 6 or 7 is refused (30 R71). -/

theorem test_wf_egNop : ¬ (Instr.egNop 6).WellFormed := by decide

theorem test_wf_egInit : ¬ (Instr.egInit 6 (Vector.replicate 4 0) (Vector.replicate 4 0) 0).WellFormed := by decide

theorem test_wf_egKeyoff : ¬ (Instr.egKeyoff 7).WellFormed := by decide

theorem test_wf_egKeyon : ¬ (Instr.egKeyon 6).WellFormed := by decide

theorem test_wf_egSample : ¬ (Instr.egSample 7).WellFormed ∧ (Instr.egSample 5).WellFormed := by decide

/-! Decoding, one word per command (R73, R74, R75; 95 V1, V2). -/

theorem test_decode_egNop : decodeTableWord 8 0b00011000 = some (.egNop 3) := by decide

theorem test_decode_egInit :
    decodeTableWord 8 0b00001001 = some (.egInit 1 (Vector.replicate 4 0) (Vector.replicate 4 0) 0) := by decide

theorem test_decode_egKeyoff : decodeTableWord 8 0b00001010 = some (.egKeyoff 1) := by decide

theorem test_decode_egKeyon : decodeTableWord 8 0b00010011 = some (.egKeyon 2) := by decide

theorem test_decode_egSample : decodeTableWord 8 0b00101100 = some (.egSample 5) := by decide

theorem test_decode_laScaleol : decodeTableWord 8 0b01000000 = some (.laScaleol 0) := by decide

theorem test_decode_laScalevel : decodeTableWord 8 0b01000001 = some (.laScalevel 0 0) := by decide

theorem test_decode_laOlbias : decodeTableWord 8 0b01000010 = some (.laOlbias 0 0 0) := by decide

theorem test_decode_laQrate : decodeTableWord 8 0b01000011 = some (.laQrate 0) := by decide

theorem test_decode_laRateinc : decodeTableWord 8 0b01000100 = some (.laRateinc 0) := by decide

theorem test_decode_laTarget : decodeTableWord 8 0b01000101 = some (.laTarget 0 0) := by decide

theorem test_decode_laGain : decodeTableWord 8 0b01000110 = some (.laGain 0) := by decide

theorem test_decode_laRatio : decodeTableWord 8 0b01000111 = some (.laRatio 0 0 0) := by decide

theorem test_decode_fmInit :
    decodeTableWord 8 0b10000001 =
      some (.fmInit 0 (.int 0) (Vector.replicate 6 (.int 0)) (Vector.replicate 6 (.int 0))) := by decide

theorem test_decode_fmStep :
    decodeTableWord 8 0b10000100 = some (.fmStep (.int 0) (Vector.replicate 6 (.int 0))) := by decide

/-- 95 V3. -/
theorem test_decode_reserved :
    ([0x05, 0x07, 0x2D, 0x30, 0x3C, 0x48, 0x7F, 0x80, 0x82, 0x83, 0x85, 0x8C, 0xC0, 0xFF].all fun w =>
      (decodeTableWord 8 w).isNone) = true := by decide

/-- 95 V4. -/
theorem test_note_words : (noteCommands 2 2 1).map Instr.word = [0x13, 0x14, 0x14, 0x12, 0x14] := by decide

/-- 95 V4. -/
theorem test_key_words : (keyCommand 4 true ++ keyCommand 4 false).map Instr.word = [0x23, 0x22] := by decide

/-- An operand travels on its own port (R76). -/
theorem test_ports : decode 0x42 { Ports.zero with ol := 99, v := 100, s := 7, l := 5 } = .ok (.laOlbias 99 100 7) := by
  decide

/-! One command over CFG_REF against a vector. -/

/-- The six values the vectors show of an instance: (STAGE, KEYDOWN, CUR, TGT, INC, RISING). -/
def shown (g : EgInst) : Nat × Bool × Int × Int × Int × Bool :=
  (g.stage.toNat, g.keydown, g.cur.toInt, g.tgt.toInt, g.inc.toInt, g.rising)

def four (a b c d : BitVec 7) : Vector (BitVec 7) 4 := #v[a, b, c, d]

/-- An instance as the vectors give one. -/
def inst (r l : Vector (BitVec 7) 4) (b : BitVec 13) (stage : BitVec 2) (keydown : Bool) (cur tgt inc : S32)
    (rising : Bool) : EgInst where
  erate := r
  elvl := l
  olbias := b
  cur := cur
  tgt := tgt
  inc := inc
  stage := stage
  keydown := keydown
  rising := rising
  valid := true

/-- A block right after reset but for one instance. -/
def withInst (e : BitVec 3) (g : EgInst) : State := State.reset.setEg e g

/-- 95 V20. -/
theorem test_egInit_v20 :
    shown ((egInit Cfg.ref 3 (four 80 60 40 70) (four 99 80 70 0) 3264 State.reset).getEg 3) =
      (0, true, 0, 199229440, 7340032, true) := by decide

/-- 95 V38. -/
theorem test_egInit_bad :
    (egInit Cfg.ref 0 (four 100 99 99 99) (four 99 99 99 0) 4064 State.reset).fault = .badOperand := by decide

/-- 95 V29: restarted from the level where it stands, with the key already down. -/
theorem test_egKeyon_v29 :
    shown ((egKeyon Cfg.ref 0 (withInst 0 (inst (four 99 30 30 99) (four 99 90 90 0) 4064 1 true 251629568 234881024
      28672 false))).getEg 0) = (0, true, 251629568, 251658240, 58720256, true) := by decide

/-- 95 V28, the last `EG.KEYON`: a falling stage 0. -/
theorem test_egKeyon_v28 :
    shown ((egKeyon Cfg.ref 0 (withInst 0 (inst (four 99 99 99 99) (four 50 50 50 99) 4064 3 false 251658240 251658240
      58720256 false))).getEg 0) = (0, true, 251658240, 150994944, 58720256, false) := by decide

/-- 95 V27: key-off in stage 0. -/
theorem test_egKeyoff_v27 :
    shown ((egKeyoff Cfg.ref 2 (withInst 2 (inst (four 40 99 99 60) (four 99 99 99 0) 4064 0 true 113278976 251658240
      81920 true))).getEg 2) = (3, false, 113278976, 1048576, 786432, false) := by decide

/-- 95 V37. -/
theorem test_egKeyoff_uninit :
    (egKeyoff Cfg.ref 1 (withInst 0 (inst (four 99 99 99 99) (four 99 99 99 0) 4064 0 true 0 251658240 58720256
      true))).finfo = 0x0A := by decide

/-- 95 V21, sample 3: the factor has fallen to 9. 95 V23, sample 1: the clamp brings the level down from the floor to the
target. -/
theorem test_egSample_rising :
    (egSample Cfg.ref 5 (withInst 5 (inst (four 50 50 50 50) (four 99 99 99 0) 3792 0 true 117702656 233832448 262144
      true))).levelOut = some 120061952 ∧
    shown ((egSample Cfg.ref 0 (withInst 0 (inst (four 50 50 50 50) (four 10 10 10 0) 0 0 true 0 1048576 262144
      true))).getEg 0) = (1, true, 1048576, 1048576, 262144, false) := by decide

/-- 95 V22: the negative intermediate is never stored. 95 V28: at stage 3 a reached target leaves TGT, INC and RISING. -/
theorem test_egSample_last_stage :
    shown ((egSample Cfg.ref 0 (withInst 0 (inst (four 99 99 99 99) (four 99 99 99 0) 4064 3 false 16777216 1048576
      58720256 false))).getEg 0) = (3, false, 1048576, 1048576, 58720256, false) ∧
    shown ((egSample Cfg.ref 0 (withInst 0 (inst (four 99 99 99 99) (four 50 50 50 99) 4064 3 false 150994944 251658240
      58720256 true))).getEg 0) = (3, false, 251658240, 251658240, 58720256, true) := by decide

/-- 95 P4. -/
theorem test_egNop_p4 : egNop 0 State.reset = State.reset := by decide

/-- 95 V11. -/
theorem test_laScaleol_v11 :
    ([0, 1, 19, 20, 50, 99].map fun l => (laScaleol Cfg.ref l State.reset).qOut) =
      [some 0, some 5, some 46, some 48, some 78, some 127] := by decide

/-- 95 V12: the shift floors, and velocity is clamped on both sides. -/
theorem test_laScalevel_v12 :
    ([(0, 7), (127, 7), (64, 3), (-5, 2), (200, 2)].map fun x => (laScalevel Cfg.ref x.1 x.2 State.reset).qOut) =
      [some (-3344), some 224, some (-192), some (-944), some 64] := by decide

/-- 95 V38. -/
theorem test_laScalevel_bad : (laScalevel Cfg.ref 64 8 State.reset).finfo = 0x41 := by decide

/-- 95 V13. -/
theorem test_laOlbias_v13 :
    (laOlbias Cfg.ref 80 64 3 State.reset).qOut = some 3264 ∧ (laOlbias Cfg.ref 0 0 7 State.reset).qOut = some 0 ∧
      (laOlbias Cfg.ref 99 127 7 State.reset).qOut = some 4288 := by decide

/-- 95 V10. -/
theorem test_laQrate_v10 :
    ([0, 1, 2, 50, 71, 98, 99].map fun r => (laQrate r State.reset).qOut) =
      [some 0, some 0, some 1, some 32, some 45, some 62, some 63] := by decide

/-- 95 V10: `LA.QRATE 100`. -/
theorem test_laQrate_bad : (laQrate 100 State.reset).fault = .badOperand := by decide

/-- 95 V14. -/
theorem test_laRateinc_v14 :
    ([0, 3, 32, 63].map fun q => (laRateinc Cfg.ref q State.reset).qOut) =
      [some 1024, some 1792, some 262144, some 58720256] := by decide

/-- 95 V15. -/
theorem test_laTarget_v15 :
    (laTarget Cfg.ref 80 3264 State.reset).qOut = some 161480704 ∧
      (laTarget Cfg.ref 99 0 State.reset).qOut = some 1048576 := by decide

/-- 95 V15: `LA.TARGET 99, 4289`. -/
theorem test_laTarget_bad : (laTarget Cfg.ref 99 4289 State.reset).fault = .badOperand := by decide

/-- R128, the expression as it is written: 95 V16 evaluates it. -/
theorem test_laGain :
    (laGain 251658240 State.reset).qfOut =
      some (.div (.exp2 (.add (.int 10) (.div (.int 251658240) (.int 16777216)))) (.int 16777216)) := by decide

/-- R129 at coarse 0: 0.5 stands in both places (95 V17). -/
theorem test_laRatio :
    (laRatio 0 50 24 State.reset).qfOut =
      some (.mul (.add (.div (.int 1) (.int 2)) (.mul (.div (.div (.int 1) (.int 2)) (.int 100)) (.int 50)))
        (.exp2 (.div (.int 0) (.int 12)))) := by decide

/-- Six lanes of integers. -/
def six (a b c d e f : Int) : Vector NUM 6 := #v[.int a, .int b, .int c, .int d, .int e, .int f]

/-- Six integer operands. -/
def sixOps (a b c d e f : Int) : Vector NumOperand 6 := #v[.int a, .int b, .int c, .int d, .int e, .int f]

/-- 95 V39: ALG_RANGE comes before BAD_OPERAND. -/
theorem test_fmInit_v39 :
    (fmInit Cfg.ref 32 (.int 0) (sixOps (-1) 1 1 1 1 1) (six 0 0 0 0 0 0) State.reset).fault = .algRange := by decide

/-- 95 V38: a sample rate of 0. -/
theorem test_fmInit_v38 :
    (fmInit Cfg.ref 31 (.int 0) (sixOps 1 1 1 1 1 1) (six 0 0 0 0 0 0) State.reset).fault = .badOperand := by decide

/-- 95 V40 (a): a self entry, an upward entry and an entry with no carrier; a downward entry is well formed. -/
theorem test_topology_v40 :
    topologyOk 0x01000000001 = false ∧ topologyOk 0x01000000040 = false ∧ topologyOk 0x00000000002 = false ∧
      topologyOk 0x01000000002 = true := by decide

/-- 95 V32: in a chain 2 to 1 to 0 the modulator 1 is read after modulator 2 has been folded into it. -/
theorem test_fmStep_v32 :
    (modulationPass 0x01000000102 (six 1 2 3 0 0 0) (six 10 11 12 13 14 15))[(0 : Fin 6)] =
      .add (.int 10) (.mul (.mul (.int 2) (.sin (.add (.int 11) (.mul (.mul (.int 3) (.sin (.int 12))) .twoPi))))
        .twoPi) := by decide

/-- 95 V37: `FM.STEP` on a core that holds no value. -/
theorem test_fmStep_uninit : (fmStep Cfg.ref (.int 440) (six 1 0 0 0 0 0) State.reset).finfo = 0x84 := by decide

/-- Shown signs: integers, fractions, a sum, a power of two, a product with 0. -/
theorem test_shownSign :
    shownSign (.int (-1)) = some .neg ∧ shownSign (.div (.int 1) (.int (-2))) = some .neg ∧
      shownSign (.add (.int 3) (.div (.int (-6)) (.int 2))) = some .zero ∧
      shownSign (ratio 0 50 24) = some .pos ∧ shownSign (.mul (.int 0) (.given 0)) = some .zero ∧
      shownSign (.given 0) = none := by decide

/-- The contours of a timeline: a silence between two notes takes no level and is zero gain; note 69 is 440 Hz (42 R164
to R167). -/
theorem test_contours (a b c : S32) :
    operatorContour [.sounding 69 100 1 1, .silence 2, .sounding 60 100 1 0] [a, b, c] =
        [gain a, gain b, .int 0, .int 0, gain c] ∧
      pitchContour [.sounding 69 100 1 1, .silence 1] = [.int 440, .int 440, Config.silenceHz] := ⟨rfl, rfl⟩

/-- 95 V40 (b): after `0x05` the block ignores everything. -/
theorem test_sticky_v40 :
    reservedCommand 0xFF (reservedCommand 0x05 State.reset) = reservedCommand 0x05 State.reset := by decide

/-! Witnesses. -/

/-- A block with one command presented. -/
def presented (w : Byte) : State := State.reset.present (.command w Ports.zero)

/-- A valid instance at stage `n`, the level on its target, falling. -/
def quiet (n : Fin 4) (key : Bool) : EgInst :=
  { loadStage Config.cfg { EgInst.reset with keydown := key, valid := true } n with
    cur := s32 (target Config.cfg 0 0)
    rising := false }

/-- The same, rising. -/
def quietUp (n : Fin 4) (key : Bool) : EgInst := { quiet n key with rising := true }

theorem quiet_ok (n : Fin 4) (key : Bool) (h : key = false → n = 3) (b : Bool) :
    ({ quiet n key with rising := b } : EgInst).Ok Config.cfg := by
  have h0 : ∀ n : Fin 4, (EgInst.reset.erate[n]).toNat ≤ 99 := by decide
  have h1 : ∀ n : Fin 4, (EgInst.reset.elvl[n]).toNat ≤ 99 := by decide
  have hz : ∀ n : Fin 4, (EgInst.reset.elvl[n]).toNat = 0 := by decide
  have hb : ((EgInst.reset.olbias).toNat : Int) ≤ olbiasMax Config.cfg := olbiasMax_nonneg _
  have hok := loadStage_ok Config.cfg_wellFormed (g := { EgInst.reset with keydown := key, valid := true }) n h0 h1 hb
    (show 0 ≤ (0 : S32).toInt by decide) (show (0 : S32).toInt ≤ Config.levelMax by decide) h
  have hat := hok.atTarget Config.cfg_wellFormed
  have ht : (loadStage Config.cfg { EgInst.reset with keydown := key, valid := true } n).tgt =
      s32 (target Config.cfg 0 0) := by
    show s32 (target Config.cfg (EgInst.reset.elvl[n]).toNat 0) = _
    rw [hz n]
  refine ⟨hok.rates, hok.levels, hok.bias, ?_, ?_, hok.tgtOf, hok.incOf, fun _ => ?_, fun _ => ?_, hok.released⟩
  · show 0 ≤ (s32 (target Config.cfg 0 0)).toInt
    rw [← ht]
    exact hat.curLow
  · show (s32 (target Config.cfg 0 0)).toInt ≤ _
    rw [← ht]
    exact hat.curHigh
  · show (s32 (target Config.cfg 0 0)).toInt ≤ _
    rw [← ht]
    exact le_refl _
  · show _ ≤ (s32 (target Config.cfg 0 0)).toInt
    rw [← ht]
    exact le_refl _

theorem quiet_tgt (n : Fin 4) (key : Bool) : (quiet n key).cur = (quiet n key).tgt := by
  have hz : ∀ n : Fin 4, (EgInst.reset.elvl[n]).toNat = 0 := by decide
  show s32 (target Config.cfg 0 0) = s32 (target Config.cfg (EgInst.reset.elvl[n]).toNat 0)
  rw [hz n]

/-- A core that holds a value: six frozen operators, the last algorithm. -/
def core31 : FmCore := fmLoaded 31 (.int 1) (six 0 0 0 0 0 0) (six 0 0 0 0 0 0)

theorem core31_ok : core31.Ok := by
  refine ⟨Int.cast_pos.2 (by decide), fun i => ?_, fun i => ⟨.int 0, by revert i; decide⟩⟩
  have h : core31.ratio[i] = .int 0 := by revert i; decide
  rw [h]
  exact Int.cast_nonneg (le_refl 0)

/-- A block with one valid instance and a valid core. -/
def alive (e : BitVec 3) (g : EgInst) : State := (withInst e g).setFm core31

theorem alive_getEg (e : BitVec 3) (g : EgInst) (h : e.toNat < 6) : (alive e g).getEg e = g :=
  State.getEg_setEg_same State.reset e g h

theorem alive_inv (e : BitVec 3) (g : EgInst) (he : e.toNat < 6) (h : g.Ok Config.cfg) : (alive e g).Inv := by
  refine ⟨fun e' _ hv => ?_, fun _ => core31_ok⟩
  by_cases hee : e' = e
  · subst hee
    rw [alive_getEg _ _ he]
    exact h
  · have hr : (alive e g).getEg e' = EgInst.reset :=
      (State.getEg_setEg_ne State.reset e e' g hee).trans (State.getEg_reset e')
    rw [hr] at hv
    cases hv

/-- What the EG statements ask of a state. -/
theorem alive_meets (e : BitVec 3) (n : Fin 4) (key b : Bool) (he : e.toNat < 6) (h : key = false → n = 3) :
    (alive e { quiet n key with rising := b }).fault = .none ∧
      ((alive e { quiet n key with rising := b }).getEg e).valid = true ∧
      ((alive e { quiet n key with rising := b }).getEg e).Ok Config.cfg := by
  rw [alive_getEg _ _ he]
  exact ⟨rfl, rfl, quiet_ok n key h b⟩

theorem test_witness_DecodeOfEncode :
    (Instr.egSample 5).WellFormed ∧ (Instr.egNop 0).WellFormed ∧ (Instr.laQrate 127).WellFormed := by decide

theorem test_witness_EveryWordIsOneRowOrReserved :
    (⟨.egSample, 0xC7, 0x04⟩ : Row) ∈ opcodeTable ∧ (⟨.egSample, 0xC7, 0x04⟩ : Row).selects 0x2C = true := by decide

/-- The first and the last word of each range R78 lists. -/
theorem test_witness_ReservedWords :
    ∀ w ∈ ([0xC0, 0xFF, 0x30, 0x3F, 0x05, 0x2F, 0x48, 0x7F, 0x88, 0xBF, 0x80, 0x82, 0x83, 0x85, 0x86, 0x87] : List Byte),
      reservedWord w := by
  unfold reservedWord
  decide

theorem test_witness_ReservedWordsRaiseIllegalCmd :
    (presented 0x05).fault = .none ∧ (presented 0x05).pending = [.command 0x05 Ports.zero] := by decide

theorem test_witness_StepRunsDecodedCommand :
    (presented 0x2C).pending = [.command 0x2C Ports.zero] ∧ decode 0x2C Ports.zero = .ok (.egSample 5) := by decide

theorem test_witness_IdleBlockHoldsItsState : State.reset.pending = [] := by decide

theorem test_witness_ResetInputClears :
    ((reservedCommand 0x05 State.reset).present .reset).pending = [.reset] := by decide

theorem test_witness_FaultedBlockIgnoresCommands :
    (reservedCommand 0x05 State.reset).fault ≠ .none ∧
      ((reservedCommand 0x05 State.reset).present (.command 0xFF Ports.zero)).pending = [.command 0xFF Ports.zero] := by
  decide

theorem test_witness_FaultingCommandWritesOnlyFaultRegisters :
    State.reset.fault = .none ∧
      ∃ t : State, exec (.laQrate 100) State.reset = .next t ∧ t.fault ≠ .none := by
  exact ⟨rfl, _, rfl, by decide⟩

theorem test_witness_UninitialisedUnitRaisesUninit :
    State.reset.fault = .none ∧ (5 : BitVec 3).toNat < 6 ∧ (State.reset.getEg 5).valid = false ∧
      State.reset.fm.valid = false := by decide

/-- Every clause just outside its range; a bias of 8191 is above every OLBIAS_MAX. -/
theorem test_witness_OutOfRangeOperandRaisesBadOperand :
    99 < (four 0 0 0 100)[(3 : Fin 4)].toNat ∧ olbiasMax Config.cfg < (((8191 : BitVec 13).toNat : Nat) : Int) ∧
      99 < (100 : BitVec 7).toNat ∧ 7 < (8 : BitVec 8).toNat ∧ 63 < (64 : BitVec 8).toNat ∧
      (31 : BitVec 8).toNat ≤ 31 ∧ ¬ 0 < realValue Config.hostNumber (NumOperand.int 0).value ∧
      realValue Config.hostNumber ((sixOps 0 0 0 0 0 (-1))[(5 : Fin 6)]).value < 0 ∧
      (99 : BitVec 7).toNat ≤ 99 ∧ (7 : BitVec 8).toNat ≤ 7 := by
  have h := olbiasMax_le Config.cfg_wellFormed
  refine ⟨by decide, lt_of_le_of_lt h (by decide), by decide, by decide, by decide, by decide, ?_, ?_, by decide, by decide⟩
  · exact fun h0 => absurd (Int.cast_pos.1 h0) (by decide)
  · exact Int.cast_lt_zero.2 (by decide)

theorem test_witness_AlgorithmOutOfRangeRaisesAlgRange : State.reset.fault = .none ∧ 31 < (32 : BitVec 8).toNat := by decide

theorem test_witness_IllegalInstanceIndex :
    egOf (.egKeyon 6) = some 6 ∧ egOf (.egSample 7) = some 7 ∧ 5 < (6 : BitVec 3).toNat ∧ State.reset.fault = .none := by
  decide

theorem test_witness_NoOverflowNoTopologyFault :
    ∃ s t : State, s.Inv ∧ s.fault = .none ∧ exec (.egSample 5) s = .next t ∧ exec (.egKeyoff 5) s ≠ .next s :=
  ⟨alive 5 (quiet 3 true), _, alive_inv 5 _ (by decide) (quiet_ok 3 true (by decide) false), rfl, rfl, by
    have h := alive_meets 5 3 true false (by decide) (by decide)
    rw [exec_done (i := .egKeyoff 5) (t := (alive 5 (quiet 3 true)).setEg 5
      (loadStage Config.cfg { quiet 3 true with keydown := false } 3)) rfl]
    · intro hn
      have hg := congrArg (fun s : State => (s.getEg 5).keydown) (Host.Outcome.next.inj hn)
      beta_reduce at hg
      rw [State.getEg_setEg_same _ _ _ (by decide), alive_getEg _ _ (by decide)] at hg
      cases hg
    · refine firstFailing_eq_none fun x hx => ?_
      simp only [checksOf, alive_getEg 5 (quiet 3 true) (by decide)] at hx
      rcases List.mem_cons.1 hx with rfl | hx
      · decide
      · rw [List.mem_singleton.1 hx]
        rfl
    · have ha := advance_loads Config.cfg_wellFormed (g := { quiet 3 true with keydown := false }) 3
        ((quiet_ok 3 true (by decide) false).rates 3) ((quiet_ok 3 true (by decide) false).levels 3)
        (quiet_ok 3 true (by decide) false).bias
      simp only [effectOf, alive_getEg 5 (quiet 3 true) (by decide)]
      exact congrArg (Option.map _) ha⟩

/-- The three clauses, at index 5 and at index 6, and on a faulted block. -/
theorem test_witness_EgNopDoesNothing :
    State.reset.fault = .none ∧ (5 : BitVec 3).toNat ≤ 5 ∧ 5 < (6 : BitVec 3).toNat ∧
      (reservedCommand 0x05 State.reset).fault ≠ .none := by decide

theorem test_witness_EgInitBuildsTheInstance :
    State.reset.fault = .none ∧ (5 : BitVec 3).toNat < 6 ∧ (∀ n : Fin 4, (four 99 99 99 99)[n].toNat ≤ 99) ∧
      (((0 : BitVec 13).toNat : Nat) : Int) ≤ olbiasMax Config.cfg :=
  ⟨rfl, by decide, by decide, olbiasMax_nonneg _⟩

theorem test_witness_EgKeyonRestartsStageZero :
    ∃ s : State, s.fault = .none ∧ (0 : BitVec 3).toNat < 6 ∧ (s.getEg 0).valid = true ∧ (s.getEg 0).Ok Config.cfg :=
  ⟨_, (alive_meets 0 2 true false (by decide) (by decide)).1, by decide,
    (alive_meets 0 2 true false (by decide) (by decide)).2⟩

theorem test_witness_EgKeyoffEntersStageThree :
    ∃ s : State, s.fault = .none ∧ (5 : BitVec 3).toNat < 6 ∧ (s.getEg 5).valid = true ∧ (s.getEg 5).Ok Config.cfg :=
  ⟨_, (alive_meets 5 0 true false (by decide) (by decide)).1, by decide,
    (alive_meets 5 0 true false (by decide) (by decide)).2⟩

/-- A rising sample in stage 2 with the key down and in stage 3 with the key up. That a rising level may fall short of the
target is shown over CFG_REF (`test_egSample_rising`): under another configuration every target may lie below the floor. -/
theorem test_witness_EgSampleRises :
    ∀ (n : Fin 4) (key : Bool), (n = 2 ∧ key = true) ∨ (n = 3 ∧ key = false) →
      ∃ (s : State) (g : EgInst), s.fault = .none ∧ g = s.getEg 5 ∧ g.valid = true ∧ g.Ok Config.cfg ∧
        (g.stage.toNat ≤ 2 ∨ g.keydown = false) ∧ g.rising = true := by
  intro n key h
  have hm := alive_meets 5 n key true (by decide) (by rcases h with ⟨rfl, rfl⟩ | ⟨rfl, rfl⟩ <;> decide)
  refine ⟨_, _, hm.1, rfl, hm.2.1, hm.2.2, ?_⟩
  rw [alive_getEg _ _ (by decide)]
  rcases h with ⟨rfl, rfl⟩ | ⟨rfl, rfl⟩
  · exact ⟨.inl (le_refl 2), rfl⟩
  · exact ⟨.inr rfl, rfl⟩

/-- A falling sample in stage 2 with the key down and in stage 3 with the key up (short of the target: 95 P1, step 10). -/
theorem test_witness_EgSampleFalls :
    ∀ (n : Fin 4) (key : Bool), (n = 2 ∧ key = true) ∨ (n = 3 ∧ key = false) →
      ∃ (s : State) (g : EgInst), s.fault = .none ∧ g = s.getEg 5 ∧ g.valid = true ∧ g.Ok Config.cfg ∧
        (g.stage.toNat ≤ 2 ∨ g.keydown = false) ∧ g.rising = false := by
  intro n key h
  have hm := alive_meets 5 n key false (by decide) (by rcases h with ⟨rfl, rfl⟩ | ⟨rfl, rfl⟩ <;> decide)
  refine ⟨_, _, hm.1, rfl, hm.2.1, hm.2.2, ?_⟩
  rw [alive_getEg _ _ (by decide)]
  rcases h with ⟨rfl, rfl⟩ | ⟨rfl, rfl⟩
  · exact ⟨.inl (le_refl 2), rfl⟩
  · exact ⟨.inr rfl, rfl⟩

theorem test_witness_SustainHolds :
    ∃ s : State, s.fault = .none ∧ (s.getEg 5).valid = true ∧ (s.getEg 5).stage = 3 ∧ (s.getEg 5).keydown = true := by
  refine ⟨alive 5 (quiet 3 true), rfl, ?_⟩
  rw [alive_getEg _ _ (by decide)]
  exact ⟨rfl, rfl, rfl⟩

/-- Both of `TerminalHoldIsPermanent` and of `RepeatedKeyoffIsIdempotent`. -/
theorem test_witness_TerminalHoldIsPermanent :
    ∃ s : State, s.fault = .none ∧ (s.getEg 5).valid = true ∧ (s.getEg 5).Ok Config.cfg ∧ (s.getEg 5).stage = 3 ∧
      (s.getEg 5).keydown = false ∧ (s.getEg 5).cur = (s.getEg 5).tgt := by
  refine ⟨alive 5 (quiet 3 false), rfl, ?_⟩
  rw [alive_getEg _ _ (by decide)]
  exact ⟨rfl, quiet_ok 3 false (by decide) false, rfl, rfl, quiet_tgt 3 false⟩

/-- The instance whose RISING a repeated `EG.KEYOFF` clears: at the target with RISING set. -/
theorem test_witness_RepeatedKeyoffIsIdempotent :
    ∃ s : State, s.fault = .none ∧ (s.getEg 0).valid = true ∧ (s.getEg 0).Ok Config.cfg ∧ (s.getEg 0).keydown = false ∧
      (s.getEg 0).rising = true ∧ (s.getEg 0).cur = (s.getEg 0).tgt := by
  refine ⟨alive 0 (quietUp 3 false), rfl, ?_⟩
  rw [alive_getEg _ _ (by decide)]
  exact ⟨rfl, quiet_ok 3 false (by decide) true, rfl, rfl, quiet_tgt 3 false⟩

theorem test_witness_KeyonAfterInitChangesNothing :
    State.reset.fault = .none ∧ (0 : BitVec 3).toNat < 6 ∧ (∀ n : Fin 4, (four 0 99 0 99)[n].toNat ≤ 99) ∧
      (((0 : BitVec 13).toNat : Nat) : Int) ≤ olbiasMax Config.cfg :=
  ⟨rfl, by decide, by decide, olbiasMax_nonneg _⟩

/-- Both sides of the duty: the key is up, and a state that `EG.INIT` answers. -/
theorem test_witness_KeyonReadingsAgreeUnderDuty :
    (State.reset.getEg 5).keydown = false ∧
      ∃ s : State, exec (.egInit 5 (four 99 99 99 99) (four 99 99 99 0) 0) State.reset = .next s :=
  ⟨by decide, _, rfl⟩

theorem test_witness_EnvelopeTerminates :
    ∃ s : State, s.fault = .none ∧ (s.getEg 5).valid = true ∧ (s.getEg 5).Ok Config.cfg ∧ (s.getEg 5).keydown = true := by
  refine ⟨alive 5 (quiet 0 true), rfl, ?_⟩
  rw [alive_getEg _ _ (by decide)]
  exact ⟨rfl, quiet_ok 0 true (by decide) false, rfl⟩

/-- Rising and falling, with the key down in stage 2 and up in stage 3. -/
theorem test_witness_LevelMonotoneWithinStage :
    ∀ b : Bool, ∃ s : State, s.fault = .none ∧ (s.getEg 0).valid = true ∧ (s.getEg 0).Ok Config.cfg ∧
      (s.getEg 0).stage.toNat ≤ 2 ∧ (s.getEg 0).rising = b := by
  intro b
  refine ⟨alive 0 { quiet 2 true with rising := b }, rfl, ?_⟩
  rw [alive_getEg _ _ (by decide)]
  exact ⟨rfl, quiet_ok 2 true (by decide) b, le_refl 2, rfl⟩

theorem test_witness_StepKeepsTheInvariant :
    ∃ s t : State, s.Inv ∧ step s = .next t :=
  ⟨alive 5 (quiet 2 true), _, alive_inv 5 _ (by decide) (quiet_ok 2 true (by decide) false), rfl⟩

theorem test_witness_InstanceRegisterRanges :
    ∃ s : State, s.Inv ∧ (s.getEg 5).valid = true := by
  refine ⟨alive 5 (quiet 2 true), alive_inv 5 _ (by decide) (quiet_ok 2 true (by decide) false), ?_⟩
  rw [alive_getEg _ _ (by decide)]
  rfl

/-- Each command that can change STAGE answers a next state. -/
theorem test_witness_StageChangesOnlyAsListed :
    ∀ i ∈ [Instr.egInit 5 (four 0 0 0 0) (four 0 0 0 0) 0, .egKeyon 5, .egKeyoff 5, .egSample 5],
      ∃ t : State, exec i (alive 5 (quiet 2 true)) = .next t := fun i _ => by cases i <;> exact ⟨_, rfl⟩

theorem test_witness_EgCommandFrame :
    egOf (.egNop 5) = some 5 ∧ egOf (.egInit 5 (four 0 0 0 0) (four 0 0 0 0) 0) = some 5 ∧ egOf (.egKeyon 5) = some 5 ∧
      egOf (.egKeyoff 5) = some 5 ∧ egOf (.egSample 5) = some 5 ∧
      ∃ t : State, exec (.egSample 5) (alive 5 (quiet 2 true)) = .next t :=
  ⟨rfl, rfl, rfl, rfl, rfl, _, rfl⟩

/-- Two blocks that differ in another instance and in the core. -/
theorem test_witness_EgResultDependsOnItsInstanceOnly :
    egOf (.egSample 5) = some 5 ∧ State.reset.getEg 5 = (alive 0 (quiet 2 true)).getEg 5 ∧
      State.reset.fault = (alive 0 (quiet 2 true)).fault :=
  ⟨rfl, (State.getEg_setEg_ne State.reset 0 5 (quiet 2 true) (by decide)).symm, rfl⟩

/-- Two instances in the sustain hold, sampled. -/
theorem test_witness_EgCommandsOfTwoInstancesCommute :
    ∃ s t t' : State, egOf (.egSample 0) = some 0 ∧ egOf (.egSample 5) = some 5 ∧ s.fault = .none ∧
      exec (.egSample 0) s = .next t ∧ t.fault = .none ∧ exec (.egSample 5) s = .next t' ∧ t'.fault = .none := by
  have h0 : ((alive 0 (quiet 3 true)).setEg 5 (quiet 3 true)).getEg 0 = quiet 3 true :=
    (State.getEg_setEg_ne _ 5 0 _ (by decide)).trans (alive_getEg 0 _ (by decide))
  have h5 : ((alive 0 (quiet 3 true)).setEg 5 (quiet 3 true)).getEg 5 = quiet 3 true :=
    State.getEg_setEg_same _ 5 _ (by decide)
  refine ⟨(alive 0 (quiet 3 true)).setEg 5 (quiet 3 true), _, _, rfl, rfl, rfl,
    egSample_done (g := quiet 3 true) rfl (by decide) ?_ ?_, rfl,
    egSample_done (g := quiet 3 true) rfl (by decide) ?_ ?_, rfl⟩
  · rw [h0]
    rfl
  · rw [h0]
    exact sampleUpdate_holds _ rfl rfl
  · rw [h5]
    rfl
  · rw [h5]
    exact sampleUpdate_holds _ rfl rfl

/-- `ScaleolResult` on both sides of the breakpoint, and the other integer LA results at the ends of their ranges. -/
theorem test_witness_ScaleolResult :
    State.reset.fault = .none ∧ (19 : BitVec 7).toNat < 20 ∧ 20 ≤ (20 : BitVec 7).toNat ∧ (99 : BitVec 7).toNat ≤ 99 := by
  decide

/-- Velocities below, inside and above the clamp. -/
theorem test_witness_ScalevelResult :
    State.reset.fault = .none ∧ (7 : BitVec 8).toNat ≤ 7 ∧ ((0 : Nat) : Int) = min (max (-1 : BitVec 16).toInt 0) 127 ∧
      ((101 : Nat) : Int) = min (max (101 : BitVec 16).toInt 0) 127 ∧
      ((127 : Nat) : Int) = min (max (200 : BitVec 16).toInt 0) 127 ∧ 127 / 2 < 64 := by decide

theorem test_witness_OlbiasResult :
    State.reset.fault = .none ∧ (99 : BitVec 7).toNat ≤ 99 ∧ (7 : BitVec 8).toNat ≤ 7 := by decide

theorem test_witness_QrateResult : State.reset.fault = .none ∧ (99 : BitVec 7).toNat ≤ 99 := by decide

theorem test_witness_RateincResult : (63 : BitVec 8).toNat < 64 ∧ State.reset.fault = .none := by decide

theorem test_witness_TargetResult :
    State.reset.fault = .none ∧ (99 : BitVec 7).toNat ≤ 99 ∧ (((0 : BitVec 13).toNat : Nat) : Int) ≤ olbiasMax Config.cfg :=
  ⟨rfl, by decide, olbiasMax_nonneg _⟩

theorem test_witness_GainResult : State.reset.fault = .none := by decide

theorem test_witness_GainLaws :
    (0 : S32).toInt < (16777216 : S32).toInt ∧ (16777216 : S32).toInt = (0 : S32).toInt + 2 ^ 24 ∧
      (268435456 : S32).toInt = (251658240 : S32).toInt + (251658240 : S32).toInt - 14 * 2 ^ 24 ∧
      (234881024 : S32).toInt = 14 * 2 ^ 24 := by decide

theorem test_witness_RatioResult : State.reset.fault = .none ∧ (0 : BitVec 8) = 0 ∧ (1 : BitVec 8) ≠ 0 := by decide

/-- An LA command that drives a port, and one that faults. -/
theorem test_witness_LaCommandFrame :
    isLa (.laQrate 99) = true ∧ ∃ t u : State, exec (.laQrate 99) State.reset = .next t ∧ t.fault = .none ∧
      exec (.laQrate 100) State.reset = .next u ∧ u.fault ≠ .none :=
  ⟨rfl, _, _, rfl, by decide, rfl, by decide⟩

theorem test_witness_ScalingIsMonotone : 19 ≤ 20 ∧ 20 ≤ 99 ∧ (-1 : Int) ≤ 128 ∧ 7 ≤ 7 := by decide

theorem test_witness_OlbiasMaxIsTheLargestBias : 99 ≤ 99 ∧ 7 ≤ 7 := by decide

theorem test_witness_FmInitLoadsTheCore :
    State.reset.fault = .none ∧ (31 : BitVec 8).toNat ≤ 31 ∧
      0 < realValue Config.hostNumber (NumOperand.int 44100).value ∧
      ∀ i : Fin 6, 0 ≤ realValue Config.hostNumber ((sixOps 0 1 1 1 1 1)[i]).value := by
  refine ⟨rfl, by decide, Int.cast_pos.2 (by decide), fun i => ?_⟩
  have h : ∀ i : Fin 6, ∃ n : Nat, ((sixOps 0 1 1 1 1 1)[i]).value = .int n := fun i =>
    ⟨if i = 0 then 0 else 1, by revert i; decide⟩
  obtain ⟨n, hn⟩ := h i
  rw [hn]
  exact Int.cast_nonneg (Int.natCast_nonneg n)

theorem test_witness_FmStepComputesTheSample :
    (alive 0 (quiet 0 true)).fault = .none ∧ (alive 0 (quiet 0 true)).fm.valid = true := ⟨rfl, rfl⟩

theorem test_witness_FmCommandFrame :
    ∃ t u : State, exec (.fmInit 31 (.int 1) (sixOps 0 0 0 0 0 0) (six 0 0 0 0 0 0)) State.reset = .next t ∧
      exec (.fmStep (.int 1) (six 0 0 0 0 0 0)) t = .next u := ⟨_, _, rfl, rfl⟩

theorem test_witness_PhasesLieInOneTurn :
    ∃ s : State, s.Inv ∧ s.fm.valid = true :=
  ⟨alive 0 (quiet 0 true), alive_inv 0 _ (by decide) (quiet_ok 0 true (by decide) false), rfl⟩

theorem test_witness_BlockSplitCarriesThePhase :
    ∃ s v : State, s.Inv ∧ s.fault = .none ∧ s.fm.valid = true ∧ v.fault = .none :=
  ⟨alive 0 (quiet 0 true), State.reset, alive_inv 0 _ (by decide) (quiet_ok 0 true (by decide) false), rfl, rfl, rfl⟩

/-- Frequency 0, and a ratio 0 under a negative frequency. -/
theorem test_witness_ZeroFrequencyHoldsThePhase (env : Nat → ℝ) :
    ∃ s : State, s.Inv ∧ s.fault = .none ∧ s.fm.valid = true ∧ realValue env (.int 0) = 0 ∧
      realValue env s.fm.ratio[(5 : Fin 6)] = 0 :=
  ⟨alive 0 (quiet 0 true), alive_inv 0 _ (by decide) (quiet_ok 0 true (by decide) false), rfl, rfl,
    Int.cast_zero, Int.cast_zero⟩

/-- Gains at the bound 8. -/
theorem test_witness_OutputIsBounded (env : Nat → ℝ) :
    (alive 0 (quiet 0 true)).fault = .none ∧ (alive 0 (quiet 0 true)).fm.valid = true ∧
      ∀ i : Fin 6, |realValue env (Vector.replicate 6 (NUM.int (-8)))[i]| ≤ 8 := by
  refine ⟨rfl, rfl, fun i => ?_⟩
  have h : (Vector.replicate 6 (NUM.int (-8)))[i] = .int (-8) := by revert i; decide
  rw [h, realValue_int]
  norm_num

theorem test_witness_ScenarioSamples :
    (alive 0 (quiet 0 true)).fault = .none ∧ (alive 0 (quiet 0 true)).fm.valid = true ∧
      (alive 0 (quiet 0 true)).fm.alg = 31 := ⟨rfl, rfl, by decide⟩

theorem test_witness_PhaseAfterSteps :
    ∃ s : State, s.Inv ∧ s.fault = .none ∧ s.fm.valid = true :=
  ⟨alive 0 (quiet 0 true), alive_inv 0 _ (by decide) (quiet_ok 0 true (by decide) false), rfl, rfl⟩

/-- Shown signs, and a block and an algorithm id for the test of `FM.INIT` (both outcomes: the witnesses of
`FmInitLoadsTheCore` and `OutOfRangeOperandRaisesBadOperand`). -/
theorem test_witness_ShownSignIsTheRealSign :
    shownSign (gain 0) = some .pos ∧ shownSign (.mul (.int (-1)) .twoPi) = some .neg ∧
      shownSign (.mul (.given 0) (.int 0)) = some .zero ∧ State.reset.fault = .none ∧ (31 : BitVec 8).toNat ≤ 31 := by decide

/-- A command that drives, one that drives nothing, and one that faults. -/
theorem test_witness_OneResultPerDrivingCommand :
    ∃ t u v : State, exec (.laGain 0) State.reset = .next t ∧ t.fault = .none ∧ drivesPort (.laGain 0) = true ∧
      exec (.egNop 0) State.reset = .next u ∧ drivesPort (.egNop 0) = false ∧
      exec (.laQrate 100) State.reset = .next v ∧ v.fault ≠ .none :=
  ⟨_, _, _, rfl, by decide, rfl, rfl, rfl, rfl, by decide⟩

/-- A level for each sample of a timeline with a silence in it, and the pitch contour of the note 69. -/
theorem test_witness_HostPlanLengths :
    ([0, 1, 2] : List S32).length =
        (([.sounding 69 100 1 1, .silence 2, .sounding 60 100 1 0] : List NoteEvent).map NoteEvent.samples).sum ∧
      NUM.int 440 ∈ pitchContour [.sounding 69 100 1 0] := ⟨rfl, List.mem_cons_self⟩

end Sys2Proof.Tests
end

section
/-! SUPPORT. What the scope chapter says of every command (00_scope R14) and of the scaling functions (R8 (a), (b)): a step
is `exec` of the decoded command, a fault writes the fault registers alone, no fault but those of the operands and the
units can occur, and the two scaling functions are monotone. -/

namespace Sys2Proof.Machine

/-! A command that takes effect. -/

theorem driveQ_fault {parts : List Int} {value : Int} {s t : State} (h : driveQ parts value s = some t) :
    t.fault = s.fault := by
  rw [driveQ_some h, State.drive_fault]

theorem driveQ_isSome {parts : List Int} (value : Int) (s : State) (h : allFit parts = true) :
    (driveQ parts value s).isSome := Option.isSome_of_eq_some (driveQ_fit value s h)

/-- An effect writes no fault register: only `raise` does (60_exceptions R181). -/
theorem effectOf_fault {i : Instr} {s t : State} (h : effectOf i s = some t) : t.fault = s.fault := by
  cases i with
  | egNop e => cases h; rfl
  | egInit e r l b => obtain ⟨g, -, rfl⟩ := Option.map_eq_some_iff.1 h; rfl
  | egKeyoff e => obtain ⟨g, -, rfl⟩ := Option.map_eq_some_iff.1 h; rfl
  | egKeyon e => obtain ⟨g, -, rfl⟩ := Option.map_eq_some_iff.1 h; rfl
  | egSample e => obtain ⟨g, -, rfl⟩ := Option.map_eq_some_iff.1 h; rfl
  | laScaleol l => exact driveQ_fault h
  | laScalevel v sens => exact driveQ_fault h
  | laOlbias ol v sens => exact driveQ_fault h
  | laQrate r => exact driveQ_fault h
  | laRateinc q => exact driveQ_fault h
  | laTarget l b => exact driveQ_fault h
  | laGain level => cases h; rfl
  | laRatio c fn t => cases h; rfl
  | fmInit alg sr ratio phase0 => cases h; rfl
  | fmStep f g => cases h; rfl

/-! What a check that passes says of its operand: the converses of `badPercent_eq_false` and its like. -/

theorem le_of_badPercent_eq_false {x : BitVec 7} (h : badPercent x = false) : x.toNat ≤ 99 :=
  not_lt.1 (of_decide_eq_false h)

theorem le_of_badSensitivity_eq_false {x : BitVec 8} (h : badSensitivity x = false) : x.toNat ≤ 7 :=
  not_lt.1 (of_decide_eq_false h)

theorem le_of_badBias_eq_false {c : Cfg} {b : BitVec 13} (h : badBias c b = false) : (b.toNat : Int) ≤ olbiasMax c :=
  not_lt.1 (of_decide_eq_false h)

theorem lt_of_badInstance_eq_false {e : BitVec 3} (h : badInstance e = false) : e.toNat < 6 :=
  Nat.lt_succ_of_le (not_lt.1 (of_decide_eq_false h))

theorem le_of_badStageValues_eq_false {xs : Vector (BitVec 7) 4} (h : badStageValues xs = false) (n : Fin 4) :
    xs[n].toNat ≤ 99 :=
  not_lt.1 fun hn => Bool.eq_false_iff.1 h (badStageValues_iff.2 ⟨n, hn⟩)

/-- Where the checks of `EG.KEYOFF`, `EG.KEYON` and `EG.SAMPLE` pass, EG[e] keeps its invariant. -/
theorem State.Inv.checked_ok {s : State} (hs : s.Inv) {e : BitVec 3}
    (h : firstFailing [(badInstance e, .illegalCmd), (!(s.getEg e).valid, .uninit)] = none) :
    (s.getEg e).Ok Config.cfg := by
  obtain ⟨hi, h⟩ := firstFailing_cons_none h
  obtain ⟨hv, -⟩ := firstFailing_cons_none h
  exact hs.eg e (lt_of_badInstance_eq_false hi) (by simpa using hv)

/-! OVERFLOW and TOPOLOGY (60_exceptions R180). -/

/-- No sub-expression of a command whose checks pass overflows, in a state that keeps the invariant (40_eg_commands R106). -/
theorem State.Inv.effectOf_isSome {s : State} (hs : s.Inv) {i : Instr} (h : firstFailing (checksOf i s) = none) :
    (effectOf i s).isSome := by
  have hc := Config.cfg_wellFormed
  cases i with
  | egNop e => rfl
  | egInit e r l b =>
    obtain ⟨-, h⟩ := firstFailing_cons_none h
    obtain ⟨hr, h⟩ := firstFailing_cons_none h
    obtain ⟨hl, h⟩ := firstFailing_cons_none h
    obtain ⟨hb, -⟩ := firstFailing_cons_none h
    have ha := advance_loads hc (g := loaded (s.getEg e) r l b) 0 (le_of_badStageValues_eq_false hr 0)
      (le_of_badStageValues_eq_false hl 0) (le_of_badBias_eq_false hb)
    exact Option.isSome_map.trans (Option.isSome_of_eq_some ha)
  | egKeyoff e =>
    have hg := hs.checked_ok h
    have ha := advance_loads hc (g := { s.getEg e with keydown := false }) 3 (hg.rates 3) (hg.levels 3) hg.bias
    exact Option.isSome_map.trans (Option.isSome_of_eq_some ha)
  | egKeyon e =>
    have hg := hs.checked_ok h
    have ha := advance_loads hc (g := { s.getEg e with keydown := true }) 0 (hg.rates 0) (hg.levels 0) hg.bias
    exact Option.isSome_map.trans (Option.isSome_of_eq_some ha)
  | egSample e =>
    obtain ⟨g, hg, -⟩ := sampleUpdate_ok hc (hs.checked_ok h)
    exact Option.isSome_map.trans (Option.isSome_of_eq_some hg)
  | laScaleol l =>
    obtain ⟨hl, -⟩ := firstFailing_cons_none h
    exact driveQ_isSome _ s (scaleolParts_fit hc (le_of_badPercent_eq_false hl))
  | laScalevel v sens =>
    obtain ⟨hv, -⟩ := firstFailing_cons_none h
    exact driveQ_isSome _ s (scalevelParts_fit hc _ (le_of_badSensitivity_eq_false hv))
  | laOlbias ol v sens =>
    obtain ⟨ho, h⟩ := firstFailing_cons_none h
    obtain ⟨hv, -⟩ := firstFailing_cons_none h
    exact driveQ_isSome _ s (olbiasParts_fit hc _ (le_of_badPercent_eq_false ho) (le_of_badSensitivity_eq_false hv))
  | laQrate r =>
    obtain ⟨hr, -⟩ := firstFailing_cons_none h
    exact driveQ_isSome _ s (qrateParts_fit (le_of_badPercent_eq_false hr))
  | laRateinc q => exact driveQ_isSome _ s (rateincParts_fit hc _)
  | laTarget l b =>
    obtain ⟨hl, h⟩ := firstFailing_cons_none h
    obtain ⟨hb, -⟩ := firstFailing_cons_none h
    exact driveQ_isSome _ s (targetParts_fit hc (le_of_badPercent_eq_false hl) (le_of_badBias_eq_false hb))
  | laGain level => rfl
  | laRatio c fn t => rfl
  | fmInit alg sr ratio phase0 => rfl
  | fmStep f g => rfl

/-- OVERFLOW is no check's cause: it is raised by an absent effect alone (60_exceptions R187). -/
theorem overflow_not_mem_checksOf (i : Instr) (s : State) : (true, Cause.overflow) ∉ checksOf i s := by
  cases i <;> simp [checksOf]

/-- The one check for TOPOLOGY, that of `FM.INIT`, passes on every entry of the machine's configuration (00_scope R8 (g)). -/
theorem topology_not_mem_checksOf (i : Instr) (s : State) : (true, Cause.topology) ∉ checksOf i s := by
  cases i <;> simp [checksOf, selected_ok]

/-! The scaling functions over a well-formed configuration. -/

theorem shr_mono {a b : Int} (n : Nat) (h : a ≤ b) : shr a n ≤ shr b n := Int.ediv_le_ediv (by positivity) h

theorem shl_mono {a b : Int} (n : Nat) (h : a ≤ b) : shl a n ≤ shl b n := mul_le_mul_of_nonneg_right h (by positivity)

theorem velIndex_mono {v v' : Int} (h : v ≤ v') : velIndex v ≤ velIndex v' := by
  show (clampVelocity v).toNat / 2 ≤ (clampVelocity v').toNat / 2
  unfold clampVelocity
  omega

section
variable {c : Cfg} (hc : c.WellFormed)
include hc

/-- Across the breakpoint too: the table ends at 48 or less and the formula begins at 48 (00_scope R8 (a)). -/
theorem scaleol_mono {l l' : Nat} (h : l ≤ l') : scaleol c l ≤ scaleol c l' := by
  unfold scaleol
  by_cases hl' : l' < 20
  · rw [dif_pos hl', dif_pos (by omega)]
    exact_mod_cast hc.lutMono _ _ h
  · rw [dif_neg hl']
    split
    · next hl =>
      have hmono := hc.lutMono ⟨l, hl⟩ 19 (Fin.le_last (n := 19) ⟨l, hl⟩)
      have htop := hc.lutTop
      omega
    · omega

theorem velDelta_mono {v v' : Int} (h : v ≤ v') : velDelta c v ≤ velDelta c v' := by
  have := hc.velMono _ _ (velIndex_mono h)
  unfold velDelta
  omega

theorem scalevel_mono {v v' : Int} (s : Nat) (h : v ≤ v') : scalevel c v s ≤ scalevel c v' s :=
  have hx : (s : Int) * velDelta c v ≤ s * velDelta c v' :=
    mul_le_mul_of_nonneg_left (velDelta_mono hc h) (Int.natCast_nonneg s)
  shl_mono 4 (shr_mono 3 (by omega))

end

/-- At sensitivity 0 the rounding term 7 alone is left, and the shift drops it (41_log_arith R123). -/
theorem scalevel_zero (c : Cfg) (v : Int) : scalevel c v 0 = 0 := by
  simp [scalevel, shr, shl]

/-! The obligations. -/

/-- Settles O6: the head of the stream is taken, and the decoder's answer selects `exec`. -/
theorem stepRunsDecodedCommand : Obligations.StepRunsDecodedCommand := by
  intro s w p rest i hpending hdecode
  simp only [step, State.takeInput_cons s _ rest hpending, runCommand, hdecode]

/-- Settles O11, by the three outcomes of a command: of those only a raised cause is a fault, since an effect leaves FAULT
as it is. -/
theorem faultingCommandWritesOnlyFaultRegisters : Obligations.FaultingCommandWritesOnlyFaultRegisters := by
  intro i s t hs hexec hfault
  rcases exec_cases hexec with ⟨h, -⟩ | ⟨-, k, -, rfl⟩ | ⟨-, -, heffect⟩
  · exact absurd hs h
  · rfl
  · exact absurd ((effectOf_fault heffect).trans hs) hfault

/-- Settles O16: a check raises neither cause, and an effect is never absent in a state that keeps the invariant. -/
theorem noOverflowNoTopologyFault : Obligations.NoOverflowNoTopologyFault := by
  intro i s t hinv hs hexec
  cases hchecks : firstFailing (checksOf i s) with
  | some k =>
    obtain rfl := Host.Outcome.next.inj (hexec.symm.trans (exec_fails hs hchecks))
    have hmem := firstFailing_mem hchecks
    refine ⟨?_, ?_⟩ <;> rintro rfl
    · exact overflow_not_mem_checksOf i s hmem
    · exact topology_not_mem_checksOf i s hmem
  | none =>
    obtain ⟨u, heffect⟩ := Option.isSome_iff_exists.1 (hinv.effectOf_isSome hchecks)
    obtain rfl := Host.Outcome.next.inj (hexec.symm.trans (exec_done hs hchecks heffect))
    rw [effectOf_fault heffect, hs]
    decide

/-- Settles O47, from the monotone tables of R8 and the monotone shifts. -/
theorem scalingIsMonotone : Obligations.ScalingIsMonotone :=
  ⟨fun _ _ h _ => scaleol_mono Config.cfg_wellFormed h, fun _ _ s h _ => scalevel_mono Config.cfg_wellFormed s h,
    scalevel_zero Config.cfg⟩

end Sys2Proof.Machine
end

section
/-! SUPPORT. The state chapter (10_state): what an EG command does to its one envelope and to the result ports (R20,
R36, 20_memory R65), the invariant of the registers along every step (R22 to R33), the states right after `EG.INIT` and
`FM.INIT` (R40, R41), reset (R38) and OLBIAS_MAX (R25). -/

namespace Sys2Proof.Machine

/-! An EG command: the envelope it leaves in EG[e] and the items it drives, from EG[e] alone. -/

/-- The EG commands on envelope `e`. -/
theorem egOf_eq_some {i : Instr} {e : BitVec 3} (h : egOf i = some e) :
    i = .egNop e ∨ (∃ r l b, i = .egInit e r l b) ∨ i = .egKeyoff e ∨ i = .egKeyon e ∨ i = .egSample e := by
  cases i <;> simp_all [egOf]

/-- The three units: EG, LA, and the two commands of FM. -/
theorem unit_cases (i : Instr) :
    (∃ e, egOf i = some e) ∨ isLa i = true ∨ (∃ alg sr ratio phase0, i = .fmInit alg sr ratio phase0) ∨
      ∃ f g, i = .fmStep f g := by
  cases i <;> simp [egOf, isLa]

/-- EG[e] after an EG command whose checks pass, from EG[e] before it; none where a sub-expression overflows. -/
def egNext (i : Instr) (g : EgInst) : Option EgInst :=
  match i with
  | .egInit _ r l b => (advance Config.cfg (loaded g r l b) 0).map fun g' => { g' with valid := true }
  | .egKeyoff _ => advance Config.cfg { g with keydown := false } 3
  | .egKeyon _ => advance Config.cfg { g with keydown := true } 0
  | .egSample _ => sampleUpdate Config.cfg g
  | _ => some g

/-- What an EG command that leaves `g` in its envelope drives. -/
def newItems (i : Instr) (g : EgInst) : List Result :=
  match i with
  | .egSample e => [.levelOut e g.cur]
  | _ => []

/-- The state after an EG command on `e` that takes effect. -/
def State.afterEg (s : State) (i : Instr) (e : BitVec 3) (g : EgInst) : State :=
  { s.setEg e g with results := newItems i g ++ s.results }

@[simp] theorem State.afterEg_fm (s : State) (i : Instr) (e : BitVec 3) (g : EgInst) :
    (s.afterEg i e g).fm = s.fm := rfl

@[simp] theorem State.afterEg_fault (s : State) (i : Instr) (e : BitVec 3) (g : EgInst) :
    (s.afterEg i e g).fault = s.fault := rfl

@[simp] theorem State.afterEg_finfo (s : State) (i : Instr) (e : BitVec 3) (g : EgInst) :
    (s.afterEg i e g).finfo = s.finfo := rfl

@[simp] theorem State.afterEg_pending (s : State) (i : Instr) (e : BitVec 3) (g : EgInst) :
    (s.afterEg i e g).pending = s.pending := rfl

@[simp] theorem State.afterEg_results (s : State) (i : Instr) (e : BitVec 3) (g : EgInst) :
    (s.afterEg i e g).results = newItems i g ++ s.results := rfl

theorem State.getEg_afterEg_same (s : State) (i : Instr) {e : BitVec 3} (g : EgInst) (h : e.toNat < 6) :
    (s.afterEg i e g).getEg e = g := State.getEg_setEg_same s e g h

theorem State.getEg_afterEg_ne (s : State) (i : Instr) {e e' : BitVec 3} (g : EgInst) (h : e' ≠ e) :
    (s.afterEg i e g).getEg e' = s.getEg e' := State.getEg_setEg_ne s e e' g h

/-- The effect of an EG command is a function of its envelope (20_memory R65). -/
theorem effectOf_eg {i : Instr} {e : BitVec 3} (h : egOf i = some e) (s : State) :
    effectOf i s = (egNext i (s.getEg e)).map (s.afterEg i e) := by
  rcases egOf_eq_some h with rfl | ⟨r, l, b, rfl⟩ | rfl | rfl | rfl
  · exact congrArg some (State.setEg_getEg s e).symm
  · simp only [effectOf, egNext, Option.map_map]
    rfl
  · rfl
  · rfl
  · rfl

/-- The checks of an EG command read its envelope alone. -/
theorem checksOf_eg_congr {i : Instr} {e : BitVec 3} {s s' : State} (h : egOf i = some e)
    (hg : s.getEg e = s'.getEg e) : checksOf i s = checksOf i s' := by
  rcases egOf_eq_some h with rfl | ⟨r, l, b, rfl⟩ | rfl | rfl | rfl <;> simp only [checksOf, hg]

/-- An EG command whose checks pass selects one of the six envelopes (30_encoding R71). -/
theorem lt_of_checked_eg {i : Instr} {e : BitVec 3} {s : State} (h : egOf i = some e)
    (hc : firstFailing (checksOf i s) = none) : e.toNat < 6 := by
  refine lt_of_badInstance_eq_false ?_
  rcases egOf_eq_some h with rfl | ⟨r, l, b, rfl⟩ | rfl | rfl | rfl <;> exact (firstFailing_cons_none hc).1

/-- All that an EG command can do: be ignored, fault, or write its envelope and drive its items. -/
theorem exec_eg_cases {i : Instr} {e : BitVec 3} {s t : State} (h : egOf i = some e) (ht : exec i s = .next t) :
    (s.fault ≠ .none ∧ t = s) ∨ (s.fault = .none ∧ ∃ k, k ≠ .none ∧ t = raise k i.word s) ∨
      (s.fault = .none ∧ e.toNat < 6 ∧ ∃ g, egNext i (s.getEg e) = some g ∧ t = s.afterEg i e g) := by
  refine (exec_cases ht).imp_right (Or.imp_right fun ⟨hs, hc, he⟩ => ⟨hs, lt_of_checked_eg h hc, ?_⟩)
  rw [effectOf_eg h, Option.map_eq_some_iff] at he
  obtain ⟨g, hg, rfl⟩ := he
  exact ⟨g, hg, rfl⟩

/-! What the micro-operations of an EG command keep. -/

/-- `ADVANCE` writes no parameter, only STAGE, TGT, INC and RISING (40_eg_commands R93). -/
theorem advance_parameters {c : Cfg} {g g' : EgInst} {n : Nat} (h : advance c g n = some g') :
    g'.erate = g.erate ∧ g'.elvl = g.elvl ∧ g'.olbias = g.olbias ∧ g'.valid = g.valid := by
  rcases advance_cases h with ⟨_, rfl⟩ | ⟨_, rfl⟩ <;> exact ⟨rfl, rfl, rfl, rfl⟩

theorem advance_cur {c : Cfg} {g g' : EgInst} {n : Nat} (h : advance c g n = some g') : g'.cur = g.cur := by
  rcases advance_cases h with ⟨_, rfl⟩ | ⟨_, rfl⟩ <;> rfl

theorem advance_stage {c : Cfg} {g g' : EgInst} (n : Fin 4) (h : advance c g n = some g') :
    g'.stage = BitVec.ofFin n := by
  rcases advance_cases h with ⟨_, rfl⟩ | ⟨hn, _⟩
  · rfl
  · exact absurd n.isLt hn

/-- The parameters and VALID are written by `EG.INIT` alone (10_state R20, R27). -/
theorem egNext_parameters {i : Instr} {e : BitVec 3} {g g' : EgInst} (h : egOf i = some e)
    (hi : ∀ r l b, i ≠ .egInit e r l b) (hg : egNext i g = some g') :
    g'.erate = g.erate ∧ g'.elvl = g.elvl ∧ g'.olbias = g.olbias ∧ g'.valid = g.valid := by
  rcases egOf_eq_some h with rfl | ⟨r, l, b, rfl⟩ | rfl | rfl | rfl
  · cases hg
    exact ⟨rfl, rfl, rfl, rfl⟩
  · exact absurd rfl (hi r l b)
  · exact (advance_parameters hg :)
  · exact (advance_parameters hg :)
  · obtain ⟨hr, hl, hb, -, hv⟩ := sampleUpdate_keeps hg
    exact ⟨hr, hl, hb, hv⟩

theorem egNext_key_cur {i : Instr} {e : BitVec 3} {g g' : EgInst} (h : i = .egKeyon e ∨ i = .egKeyoff e)
    (hg : egNext i g = some g') : g'.cur = g.cur := by
  rcases h with rfl | rfl
  · exact (advance_cur hg :)
  · exact (advance_cur hg :)

theorem newItems_eq_nil {i : Instr} {e : BitVec 3} (h : egOf i = some e) (hi : i ≠ .egSample e) (g : EgInst) :
    newItems i g = [] := by
  rcases egOf_eq_some h with rfl | ⟨r, l, b, rfl⟩ | rfl | rfl | rfl
  · rfl
  · rfl
  · rfl
  · rfl
  · exact absurd rfl hi

/-- The four moves of STAGE (10_state R26, 40_eg_commands R109). -/
theorem egNext_stage {i : Instr} {e : BitVec 3} {g g' : EgInst} (h : egOf i = some e)
    (hg : egNext i g = some g') :
    g'.stage = g.stage ∨ (((∃ r l b, i = .egInit e r l b) ∨ i = .egKeyon e) ∧ g'.stage = 0) ∨
      (i = .egKeyoff e ∧ g'.stage = 3) ∨
      (i = .egSample e ∧ g.stage.toNat ≤ 2 ∧ g'.stage.toNat = g.stage.toNat + 1) := by
  rcases egOf_eq_some h with rfl | ⟨r, l, b, rfl⟩ | rfl | rfl | rfl
  · cases hg
    exact .inl rfl
  · obtain ⟨g₀, hg₀, rfl⟩ := Option.map_eq_some_iff.1 hg
    exact .inr (.inl ⟨.inl ⟨r, l, b, rfl⟩, (advance_stage 0 hg₀ :)⟩)
  · exact .inr (.inr (.inl ⟨rfl, advance_stage 3 hg⟩))
  · exact .inr (.inl ⟨.inr rfl, advance_stage 0 hg⟩)
  · exact (sampleUpdate_stage hg).imp_right fun hs => .inr (.inr ⟨rfl, hs⟩)

/-! The commands of the other units. -/

/-- An LA command that takes effect drives one item and writes nothing (41_log_arith R120). -/
theorem effectOf_la {i : Instr} {s t : State} (hi : isLa i = true) (h : effectOf i s = some t) :
    ∃ r, t = s.drive r := by
  cases i with
  | laScaleol l => exact ⟨_, driveQ_some h⟩
  | laScalevel v sens => exact ⟨_, driveQ_some h⟩
  | laOlbias ol v sens => exact ⟨_, driveQ_some h⟩
  | laQrate r => exact ⟨_, driveQ_some h⟩
  | laRateinc q => exact ⟨_, driveQ_some h⟩
  | laTarget l b => exact ⟨_, driveQ_some h⟩
  | laGain level => exact ⟨_, (Option.some.inj h).symm⟩
  | laRatio c fn t => exact ⟨_, (Option.some.inj h).symm⟩
  | _ => cases hi

/-- An envelope is written by the EG commands that select it alone (20_memory R65). -/
theorem effectOf_getEg_of_ne {i : Instr} {s t : State} {e : BitVec 3} (hi : egOf i ≠ some e)
    (h : effectOf i s = some t) : t.getEg e = s.getEg e := by
  rcases unit_cases i with ⟨e', he'⟩ | hla | ⟨alg, sr, ratio, phase0, rfl⟩ | ⟨f, g, rfl⟩
  · rw [effectOf_eg he', Option.map_eq_some_iff] at h
    obtain ⟨g, -, rfl⟩ := h
    exact State.getEg_afterEg_ne s i g fun hee => hi (he'.trans (congrArg some hee.symm))
  · obtain ⟨r, rfl⟩ := effectOf_la hla h
    rfl
  · cases h
    rfl
  · cases h
    rfl

/-! The invariant. -/

/-- The registers `EG.INIT` has checked and loads meet the ranges that loading stage 0 needs (40_eg_commands R92). -/
theorem loaded_ok (g : EgInst) {r l : Vector (BitVec 7) 4} {b : BitVec 13} (hr : ∀ n : Fin 4, r[n].toNat ≤ 99)
    (hl : ∀ n : Fin 4, l[n].toNat ≤ 99) (hb : (b.toNat : Int) ≤ olbiasMax Config.cfg) :
    advance Config.cfg (loaded g r l b) 0 = some (loadStage Config.cfg (loaded g r l b) 0) ∧
      (loadStage Config.cfg (loaded g r l b) 0).Ok Config.cfg :=
  ⟨advance_loads Config.cfg_wellFormed (g := loaded g r l b) 0 (hr 0) (hl 0) hb,
    loadStage_ok Config.cfg_wellFormed (g := loaded g r l b) 0 hr hl hb (show 0 ≤ (0 : S32).toInt by decide)
      (show (0 : S32).toInt ≤ Config.levelMax by decide) nofun⟩

/-- Moving the key and loading a stage keeps the invariant, where a key that is up comes with stage 3. -/
theorem EgInst.Ok.advance_key {g : EgInst} (h : g.Ok Config.cfg) (n : Fin 4) (key : Bool) (hk : key = false → n = 3) :
    advance Config.cfg { g with keydown := key } n = some (loadStage Config.cfg { g with keydown := key } n) ∧
      (loadStage Config.cfg { g with keydown := key } n).Ok Config.cfg :=
  ⟨advance_loads Config.cfg_wellFormed (g := { g with keydown := key }) n (h.rates n) (h.levels n) h.bias,
    loadStage_ok Config.cfg_wellFormed (g := { g with keydown := key }) n h.rates h.levels h.bias h.curLow h.curHigh hk⟩

/-- VALID is no part of the invariant of an envelope. -/
theorem EgInst.Ok.withValid {c : Cfg} {g : EgInst} (h : g.Ok c) (v : Bool) : ({ g with valid := v } : EgInst).Ok c :=
  ⟨h.rates, h.levels, h.bias, h.curLow, h.curHigh, h.tgtOf, h.incOf, h.below, h.above, h.released⟩

/-- An EG command whose checks pass leaves an envelope that keeps the invariant. -/
theorem State.Inv.egNext_ok {s : State} (hs : s.Inv) {i : Instr} {e : BitVec 3} {g : EgInst}
    (h : egOf i = some e) (hc : firstFailing (checksOf i s) = none) (hg : egNext i (s.getEg e) = some g) :
    g.valid = true → g.Ok Config.cfg := by
  rcases egOf_eq_some h with rfl | ⟨r, l, b, rfl⟩ | rfl | rfl | rfl
  · cases hg
    exact hs.eg e (lt_of_checked_eg h hc)
  · obtain ⟨-, hc⟩ := firstFailing_cons_none hc
    obtain ⟨hr, hc⟩ := firstFailing_cons_none hc
    obtain ⟨hl, hc⟩ := firstFailing_cons_none hc
    obtain ⟨hb, -⟩ := firstFailing_cons_none hc
    obtain ⟨g₀, hg₀, rfl⟩ := Option.map_eq_some_iff.1 hg
    obtain ⟨ha, hok⟩ := loaded_ok (s.getEg e) (le_of_badStageValues_eq_false hr) (le_of_badStageValues_eq_false hl)
      (le_of_badBias_eq_false hb)
    obtain rfl := Option.some.inj (ha.symm.trans hg₀)
    exact fun _ => hok.withValid true
  · obtain ⟨ha, hok⟩ := (hs.checked_ok hc).advance_key 3 false fun _ => rfl
    obtain rfl := Option.some.inj (ha.symm.trans hg)
    exact fun _ => hok
  · obtain ⟨ha, hok⟩ := (hs.checked_ok hc).advance_key 0 true nofun
    obtain rfl := Option.some.inj (ha.symm.trans hg)
    exact fun _ => hok
  · obtain ⟨g', ha, hok⟩ := sampleUpdate_ok Config.cfg_wellFormed (hs.checked_ok hc)
    obtain rfl := Option.some.inj (ha.symm.trans hg)
    exact fun _ => hok

/-- The core `FM.INIT` loads once its operands are checked (42_fm_core R153). -/
theorem fmLoaded_ok {sr : NumOperand} {ratio : Vector NumOperand 6} (alg : BitVec 8) (phase0 : Vector NUM 6)
    (hsr : 0 < realValue Config.hostNumber sr.value)
    (hratio : ∀ i : Fin 6, 0 ≤ realValue Config.hostNumber ratio[i].value) :
    (fmLoaded alg sr.value (ratio.map (·.value)) phase0).Ok where
  rate := hsr
  ratios i := by
    have hget : (fmLoaded alg sr.value (ratio.map (·.value)) phase0).ratio[i] = ratio[i].value :=
      Vector.getElem_map ..
    rw [hget]
    exact hratio i
  phases i := ⟨phase0[i], fmLoaded_phase_get ..⟩

/-- `FM.STEP` writes phases that are wrapped (42_fm_core R155). -/
theorem FmCore.Ok.advanced {fm : FmCore} (h : fm.Ok) (f : NUM) :
    ({ fm with phase := advancedPhases fm f } : FmCore).Ok :=
  ⟨h.rate, h.ratios, fun i => ⟨_, advancedPhases_get fm f i⟩⟩

/-- A command whose checks pass keeps the invariant. -/
theorem State.Inv.of_effectOf {s t : State} (hs : s.Inv) {i : Instr} (hc : firstFailing (checksOf i s) = none)
    (h : effectOf i s = some t) : t.Inv := by
  rcases unit_cases i with ⟨e, he⟩ | hla | ⟨alg, sr, ratio, phase0, rfl⟩ | ⟨f, g, rfl⟩
  · rw [effectOf_eg he, Option.map_eq_some_iff] at h
    obtain ⟨g, hg, rfl⟩ := h
    obtain ⟨heg, hfm⟩ := hs.setEg e (hs.egNext_ok he hc hg)
    exact ⟨heg, hfm⟩
  · obtain ⟨r, rfl⟩ := effectOf_la hla h
    exact hs.drive r
  · obtain ⟨-, hc⟩ := firstFailing_cons_none hc
    obtain ⟨hsr, hc⟩ := firstFailing_cons_none hc
    obtain ⟨hratio, -⟩ := firstFailing_cons_none hc
    cases h
    refine hs.setFm fun _ => fmLoaded_ok alg phase0 ?_ fun i => ?_
    · exact not_not.1 (badSampleRate_iff.not.1 (Bool.eq_false_iff.1 hsr))
    · exact not_lt.1 fun hi => Bool.eq_false_iff.1 hratio (badRatios_iff.2 ⟨i, hi⟩)
  · cases h
    have hfm := hs.setFm (fm := { s.fm with phase := advancedPhases s.fm f }) fun hv => (hs.fm hv).advanced f
    exact hfm.drive _

theorem State.Inv.of_exec {s t : State} (hs : s.Inv) {i : Instr} (h : exec i s = .next t) : t.Inv := by
  rcases exec_cases h with ⟨-, rfl⟩ | ⟨-, k, -, rfl⟩ | ⟨-, hc, he⟩
  · exact hs
  · exact hs.raise k i.word
  · exact hs.of_effectOf hc he

/-- A reserved word is ignored by a faulted block and raises ILLEGAL_CMD otherwise (60_exceptions R182). -/
theorem reservedCommand_cases (w : Byte) (s : State) :
    (s.fault ≠ .none ∧ reservedCommand w s = s) ∨
      (s.fault = .none ∧ reservedCommand w s = raise .illegalCmd w s) := by
  by_cases h : s.fault = .none
  · exact .inr ⟨h, execute_fails w none h rfl⟩
  · exact .inl ⟨h, execute_faulted w _ none h⟩

theorem State.Inv.of_reservedCommand {s : State} (hs : s.Inv) (w : Byte) : (reservedCommand w s).Inv := by
  rcases reservedCommand_cases w s with ⟨-, h⟩ | ⟨-, h⟩ <;> rw [h]
  · exact hs
  · exact hs.raise .illegalCmd w

/-! Reset. -/

theorem State.getEg_blockReset (s : State) (e : BitVec 3) : s.blockReset.getEg e = EgInst.reset := State.getEg_reset e

/-- Right after reset nothing is valid, so there is nothing to keep. -/
theorem State.blockReset_inv (s : State) : s.blockReset.Inv := by
  refine ⟨fun e _ hv => ?_, nofun⟩
  rw [State.getEg_blockReset] at hv
  cases hv

/-- The input `rst` (10_state R38). -/
theorem step_reset {s : State} {rest : List Input} (h : s.pending = .reset :: rest) :
    step s = .next ({ s with pending := rest } : State).blockReset := by
  simp only [step, State.takeInput_cons s _ rest h]

/-- All that one step can do: nothing, reset, a reserved word, or a command. -/
theorem step_cases {s t : State} (h : step s = .next t) :
    (s.pending = [] ∧ t = s) ∨
    (∃ rest, s.pending = .reset :: rest ∧ t = ({ s with pending := rest } : State).blockReset) ∨
    ∃ w p rest, s.pending = .command w p :: rest ∧
      ((∃ why, decode w p = .error why ∧ t = reservedCommand w { s with pending := rest }) ∨
        ∃ i, decode w p = .ok i ∧ exec i { s with pending := rest } = .next t) := by
  cases hp : s.pending with
  | nil =>
    rw [step, State.takeInput_nil s hp] at h
    exact .inl ⟨rfl, (Host.Outcome.next.inj h).symm⟩
  | cons input rest =>
    cases input with
    | reset =>
      rw [step_reset hp] at h
      exact .inr (.inl ⟨rest, rfl, (Host.Outcome.next.inj h).symm⟩)
    | command w p =>
      rw [step, State.takeInput_cons s _ rest hp] at h
      refine .inr (.inr ⟨w, p, rest, rfl, ?_⟩)
      cases hd : decode w p with
      | error why =>
        simp only [runCommand, hd] at h
        exact .inl ⟨why, rfl, (Host.Outcome.next.inj h).symm⟩
      | ok i =>
        simp only [runCommand, hd] at h
        exact .inr ⟨i, rfl, h⟩

/-! The envelope right after `EG.INIT` (10_state R40). -/

/-- The envelope as R40 writes it. -/
def initialised (r l : Vector (BitVec 7) 4) (b : BitVec 13) : EgInst where
  erate := r
  elvl := l
  olbias := b
  cur := 0
  tgt := s32 (target Config.cfg l[(0 : Fin 4)].toNat b.toNat)
  inc := s32 (rateinc Config.cfg (qrate r[(0 : Fin 4)].toNat))
  stage := 0
  keydown := true
  rising := true
  valid := true

section
variable {r l : Vector (BitVec 7) 4} {b : BitVec 13} (hr : ∀ n : Fin 4, r[n].toNat ≤ 99)
  (hl : ∀ n : Fin 4, l[n].toNat ≤ 99) (hb : (b.toNat : Int) ≤ olbiasMax Config.cfg)

include hl hb in
/-- RISING is 1 because the target is positive and the level 0 (10_state R40). -/
theorem risingFlag_initial : risingFlag (target Config.cfg l[(0 : Fin 4)].toNat b.toNat) (0 : S32).toInt = true := by
  obtain ⟨-, hpos, -⟩ := target_range Config.cfg_wellFormed (hl 0) hb
  exact decide_eq_true hpos

include hl hb in
theorem loadStage_loaded (g : EgInst) :
    { loadStage Config.cfg (loaded g r l b) 0 with valid := true } = initialised r l b :=
  congrArg (fun x => { initialised r l b with rising := x }) (risingFlag_initial hl hb)

include hl hb in
/-- A first key-on loads what `EG.INIT` has loaded (10_state R40, 40_eg_commands R103). -/
theorem loadStage_initialised : loadStage Config.cfg (initialised r l b) 0 = initialised r l b :=
  congrArg (fun x => { initialised r l b with rising := x }) (risingFlag_initial hl hb)

include hr hl hb in
theorem initialised_ok : (initialised r l b).Ok Config.cfg := by
  rw [← loadStage_loaded hl hb EgInst.reset]
  obtain ⟨-, hok⟩ := loaded_ok EgInst.reset hr hl hb
  exact hok.withValid true

include hr hl hb in
theorem egInit_done {e : BitVec 3} {s : State} (hs : s.fault = .none) (he : e.toNat < 6) :
    exec (.egInit e r l b) s = .next (s.setEg e (initialised r l b)) := by
  refine exec_done hs (firstFailing_eq_none ?_) ?_
  · simp [checksOf, badInstance_eq_false he, badStageValues_eq_false hr, badStageValues_eq_false hl,
      badBias_eq_false hb]
  · obtain ⟨ha, -⟩ := loaded_ok (s.getEg e) hr hl hb
    simp only [effectOf, ha, Option.map_some, loadStage_loaded hl hb]

include hr hl hb in
theorem egKeyon_initialised {e : BitVec 3} {s : State} (hs : s.fault = .none) (he : e.toNat < 6)
    (hg : s.getEg e = initialised r l b) : exec (.egKeyon e) s = .next s := by
  have hv : (s.getEg e).valid = true := by rw [hg]; rfl
  refine exec_done hs (firstFailing_eq_none (by simp [checksOf, badInstance_eq_false he, hv])) ?_
  obtain ⟨ha, -⟩ := (initialised_ok hr hl hb).advance_key 0 true nofun
  calc effectOf (.egKeyon e) s
    _ = (advance Config.cfg { initialised r l b with keydown := true } 0).map (s.setEg e) := by rw [← hg]; rfl
    _ = some (s.setEg e (loadStage Config.cfg (initialised r l b) 0)) := congrArg (Option.map (s.setEg e)) ha
    _ = some s := by rw [loadStage_initialised hl hb, ← hg, State.setEg_getEg]

end

/-! OLBIAS_MAX (10_state R25). -/

/-- OLBIAS_MAX is the largest scaled level with the largest velocity term, where that is not negative. -/
theorem olbiasMax_eq (c : Cfg) : olbiasMax c = shl 127 5 + max 0 (scalevel c 127 7) := rfl

/-- `SCALEVEL` is largest at velocity 127 and sensitivity 7, or is nowhere positive. -/
theorem scalevel_le {c : Cfg} (hc : c.WellFormed) (v : Int) {s : Nat} (hs : s ≤ 7) :
    scalevel c v s ≤ max 0 (scalevel c 127 7) := by
  have hs' : (s : Int) ≤ 7 := by exact_mod_cast hs
  have hx : velDelta c v ≤ velDelta c 127 :=
    Int.sub_le_sub_right (by exact_mod_cast hc.velMono (velIndex v) 63 (Fin.le_last (n := 63) _)) _
  by_cases h0 : 0 ≤ velDelta c 127
  · have hprod : (s : Int) * velDelta c v ≤ 7 * velDelta c 127 :=
      calc (s : Int) * velDelta c v
        _ ≤ s * velDelta c 127 := mul_le_mul_of_nonneg_left hx (Int.natCast_nonneg s)
        _ ≤ 7 * velDelta c 127 := mul_le_mul_of_nonneg_right hs' h0
    exact le_max_of_le_right (shl_mono 4 (shr_mono 3 (Int.add_le_add_right hprod 7)))
  · have hprod : (s : Int) * velDelta c v ≤ 0 :=
      mul_nonpos_of_nonneg_of_nonpos (Int.natCast_nonneg s) (by omega)
    exact le_max_of_le_left (shl_mono (b := 0) 4 (shr_mono (b := 7) 3 (by omega)))

theorem olbias_range {c : Cfg} (hc : c.WellFormed) {ol s : Nat} (v : Int) (hol : ol ≤ 99) (hs : s ≤ 7) :
    0 ≤ olbias c ol v s ∧ olbias c ol v s ≤ olbiasMax c := by
  refine ⟨le_max_left _ _, max_le (olbiasMax_nonneg c) ?_⟩
  rw [olbiasMax_eq]
  obtain ⟨-, hscale⟩ := scaleol_range hc hol
  exact add_le_add (shl_mono 5 hscale) (scalevel_le hc v hs)

/-- OLBIAS_MAX is returned at output level 99 and velocity 127, with sensitivity 7 where that scales up and 0 where it
scales down. -/
theorem olbias_eq_olbiasMax (c : Cfg) : ∃ s : Nat, s ≤ 7 ∧ olbias c 99 127 s = olbiasMax c := by
  have hscale : shl (scaleol c 99) 5 = shl 127 5 := rfl
  have hpos : (0 : Int) ≤ shl 127 5 := by decide
  by_cases h : 0 ≤ scalevel c 127 7
  · exact ⟨7, le_rfl, by rw [olbias, hscale, olbiasMax_eq]; omega⟩
  · exact ⟨0, by decide, by rw [olbias, hscale, olbiasMax_eq, scalevel_zero]; omega⟩

/-! The obligations. -/

/-- Settles O30: an idle step and a fault change no register, reset leaves nothing valid, and an effect keeps the
invariant. -/
theorem stepKeepsTheInvariant : Obligations.StepKeepsTheInvariant := by
  intro s t hs hstep
  rcases step_cases hstep with ⟨-, rfl⟩ | ⟨rest, -, rfl⟩ | ⟨w, p, rest, -, ⟨why, -, rfl⟩ | ⟨i, -, hexec⟩⟩
  · exact hs
  · exact State.blockReset_inv _
  · exact (hs.withPending rest).of_reservedCommand w
  · exact (hs.withPending rest).of_exec hexec

/-- Settles O18: stage 0 is loaded over level 0, so RISING is 1, and `EG.KEYON` loads the same again. -/
theorem egInitBuildsTheInstance : Obligations.EgInitBuildsTheInstance := by
  intro e r l b s hs he hr hl hb
  have hget : (s.setEg e (initialised r l b)).getEg e = initialised r l b := State.getEg_setEg_same s e _ he
  refine ⟨s.setEg e (initialised r l b), egInit_done hr hl hb hs he, rfl, ?_,
    egKeyon_initialised hr hl hb hs he hget⟩
  obtain ⟨-, hpos, -⟩ := (initialised_ok hr hl hb).tgtRange Config.cfg_wellFormed
  rw [hget]
  exact hpos

/-- Settles O32: TGT and INC are a stage target and an increment, whose ranges R8 gives; the others are the invariant. -/
theorem instanceRegisterRanges : Obligations.InstanceRegisterRanges := by
  intro s e hs he hv
  have hok := hs.eg e he hv
  obtain ⟨htgtLow, -, htgtHigh, -⟩ := hok.tgtRange Config.cfg_wellFormed
  obtain ⟨hinc, -⟩ := hok.incRange Config.cfg_wellFormed
  exact ⟨hok.curLow, hok.curHigh, htgtLow, htgtHigh, hinc, hok.bias, hok.below, hok.above⟩

/-- Settles O33: a command that does not select EG[e] leaves it, and one that does moves STAGE as its envelope moves. -/
theorem stageChangesOnlyAsListed : Obligations.StageChangesOnlyAsListed := by
  intro i s t e _ hexec
  by_cases hi : egOf i = some e
  · rcases exec_eg_cases hi hexec with ⟨-, rfl⟩ | ⟨-, k, -, rfl⟩ | ⟨-, he, g, hg, rfl⟩
    · exact .inl rfl
    · exact .inl rfl
    · rw [State.getEg_afterEg_same s i g he]
      exact egNext_stage hi hg
  · refine .inl (congrArg EgInst.stage ?_)
    rcases exec_cases hexec with ⟨-, rfl⟩ | ⟨-, k, -, rfl⟩ | ⟨-, -, heffect⟩
    · rfl
    · rfl
    · exact effectOf_getEg_of_ne hi heffect

/-- Settles O34, by the three outcomes of an EG command: the first two write no envelope and drive nothing. -/
theorem egCommandFrame : Obligations.EgCommandFrame := by
  intro i e s t hi hexec
  rcases exec_eg_cases hi hexec with ⟨-, rfl⟩ | ⟨-, k, hk, rfl⟩ | ⟨hs, he, g, hg, rfl⟩
  · exact ⟨fun _ _ => rfl, rfl, rfl, fun ht => ⟨ht, rfl⟩, fun _ => ⟨rfl, rfl, rfl, rfl⟩, fun _ => rfl, fun _ => rfl,
      fun _ => rfl, fun _ => rfl⟩
  · exact ⟨fun _ _ => rfl, rfl, rfl, fun ht => absurd ht hk, fun _ => ⟨rfl, rfl, rfl, rfl⟩, fun _ => rfl, fun _ => rfl,
      fun _ => rfl, fun _ => rfl⟩
  · rw [State.getEg_afterEg_same s i g he]
    refine ⟨fun e' hne => State.getEg_afterEg_ne s i g hne, rfl, rfl, fun _ => ⟨hs, rfl⟩,
      fun hinit => egNext_parameters hi hinit hg, fun hkey => egNext_key_cur hkey hg, ?_, ?_, ?_⟩
    · rintro rfl
      obtain ⟨-, -, -, hkeydown, -⟩ := sampleUpdate_keeps hg
      exact hkeydown
    · rintro rfl
      exact (Option.some.inj hg).symm
    · intro hsample
      rw [State.afterEg_results, newItems_eq_nil hi hsample, List.nil_append]

/-- Settles O35: the fault state, the checks and the effect of an EG command agree in the two blocks, so the same outcome
comes of it. -/
theorem egResultDependsOnItsInstanceOnly : Obligations.EgResultDependsOnItsInstanceOnly := by
  intro i e s s' hi hget hfault
  rw [exec_eq, exec_eq, effectOf_eg hi, effectOf_eg hi, ← checksOf_eg_congr hi hget, ← hget]
  by_cases hs : s.fault = .none
  · have hs' : s'.fault = .none := hfault ▸ hs
    cases hchecks : firstFailing (checksOf i s) with
    | some k =>
      rw [execute_fails _ _ hs hchecks, execute_fails _ _ hs' hchecks]
      exact ⟨_, _, [], rfl, rfl, hget, rfl, rfl, rfl⟩
    | none =>
      cases hg : egNext i (s.getEg e) with
      | none =>
        rw [Option.map_none, Option.map_none, execute_overflows _ hs hchecks rfl,
          execute_overflows _ hs' hchecks rfl]
        exact ⟨_, _, [], rfl, rfl, hget, rfl, rfl, rfl⟩
      | some g =>
        have he := lt_of_checked_eg hi hchecks
        rw [Option.map_some, Option.map_some, execute_done _ hs hchecks rfl, execute_done _ hs' hchecks rfl]
        exact ⟨_, _, newItems i g, rfl, rfl,
          (State.getEg_afterEg_same s i g he).trans (State.getEg_afterEg_same s' i g he).symm, hfault, rfl, rfl⟩
  · have hs' : s'.fault ≠ .none := hfault ▸ hs
    rw [execute_faulted _ _ _ hs, execute_faulted _ _ _ hs']
    exact ⟨s, s', [], rfl, rfl, hget, hfault, rfl, rfl⟩

/-- Settles O48. -/
theorem olbiasMaxIsTheLargestBias : Obligations.OlbiasMaxIsTheLargestBias := by
  refine ⟨fun ol s v hol hs => olbias_range Config.cfg_wellFormed v hol hs, ?_⟩
  obtain ⟨s, hs, hmax⟩ := olbias_eq_olbiasMax Config.cfg
  exact ⟨99, s, 127, le_rfl, hs, by decide, by decide, hmax⟩

/-- Settles O49: every check passes, the topology's by R8 (g), and the effect loads the operands, the phases wrapped. -/
theorem fmInitLoadsTheCore : Obligations.FmInitLoadsTheCore := by
  intro alg sr ratio phase0 s hs halg hsr hratio
  refine ⟨fmLoaded alg sr.value (ratio.map (·.value)) phase0, exec_done hs (firstFailing_eq_none ?_) rfl, rfl, ?_, rfl,
    fun i => Vector.getElem_map .., fun env i => ?_⟩
  · simp [checksOf, badAlgorithm_eq_false halg, badSampleRate_eq_false hsr, badRatios_eq_false hratio, selected_ok]
  · show (alg.setWidth 5).toNat = alg.toNat
    rw [BitVec.toNat_setWidth]
    omega
  · rw [fmLoaded_phase_get, realValue_wrap]

/-- Settles O51, by the three outcomes of a command. -/
theorem fmCommandFrame : Obligations.FmCommandFrame := by
  intro s t
  refine ⟨fun alg sr ratio phase0 hexec => ?_, fun f g hexec => ?_⟩
  · rcases exec_cases hexec with ⟨-, rfl⟩ | ⟨-, k, hk, rfl⟩ | ⟨hs, -, heffect⟩
    · exact ⟨rfl, rfl, rfl, fun ht => ⟨ht, rfl⟩, fun _ => rfl⟩
    · exact ⟨rfl, rfl, rfl, fun ht => absurd ht hk, fun _ => rfl⟩
    · cases heffect
      exact ⟨rfl, rfl, rfl, fun _ => ⟨hs, rfl⟩, fun ht => absurd hs ht⟩
  · rcases exec_cases hexec with ⟨-, rfl⟩ | ⟨-, k, hk, rfl⟩ | ⟨hs, -, heffect⟩
    · exact ⟨rfl, rfl, rfl, rfl, rfl, rfl, fun ht => ⟨ht, rfl⟩, fun _ => ⟨rfl, rfl⟩⟩
    · exact ⟨rfl, rfl, rfl, rfl, rfl, rfl, fun ht => absurd ht hk, fun _ => ⟨rfl, rfl⟩⟩
    · cases heffect
      exact ⟨rfl, rfl, rfl, rfl, rfl, rfl, fun _ => ⟨hs, rfl⟩, fun ht => absurd hs ht⟩

/-- Settles O52: the phases are wrapped numbers. -/
theorem phasesLieInOneTurn : Obligations.PhasesLieInOneTurn := by
  intro env s i hs hv
  obtain ⟨x, hx⟩ := (hs.fm hv).phases i
  rw [hx, realValue_wrap]
  exact wrapReal_range _

/-- Settles O8. -/
theorem resetInputClears : Obligations.ResetInputClears := fun s rest hpending =>
  ⟨({ s with pending := rest } : State).blockReset, step_reset hpending, rfl,
    fun e => congrArg EgInst.valid (State.getEg_blockReset _ e), rfl, rfl, rfl, rfl, rfl, rfl, rfl, rfl⟩

/-- Settles O9. -/
theorem resetStateValues : Obligations.ResetStateValues :=
  ⟨fun e => congrArg EgInst.valid (State.getEg_reset e), rfl, rfl, rfl⟩

/-- Settles O31: the reset state is its own block reset. -/
theorem resetKeepsTheInvariant : Obligations.ResetKeepsTheInvariant := State.blockReset_inv State.reset

end Sys2Proof.Machine
end

section
/-! SUPPORT. The memory chapter (20_memory): a command that does not fault passes its checks and takes its effect; EG
commands on two envelopes leave each other's checks, envelope and level stream alone (R65); and an effect drives one item
exactly when its command drives a port (R59). -/

namespace Sys2Proof.Machine

/-- A command after which no fault is pending was not ignored, passed its checks and took its effect (00_scope R14). -/
theorem effectOf_of_unfaulted {i : Instr} {s t : State} (h : exec i s = .next t) (ht : t.fault = .none) :
    firstFailing (checksOf i s) = none ∧ effectOf i s = some t := by
  rcases exec_cases h with ⟨hs, rfl⟩ | ⟨-, k, hk, rfl⟩ | ⟨-, hchecks, heffect⟩
  · exact absurd ht hs
  · exact absurd ht hk
  · exact ⟨hchecks, heffect⟩

/-! Two EG commands on different envelopes. -/

theorem exec_eg_unfaulted {i : Instr} {e : BitVec 3} {s t : State} (hi : egOf i = some e) (h : exec i s = .next t)
    (ht : t.fault = .none) :
    firstFailing (checksOf i s) = none ∧ ∃ g, egNext i (s.getEg e) = some g ∧ t = s.afterEg i e g := by
  obtain ⟨hchecks, heffect⟩ := effectOf_of_unfaulted h ht
  rw [effectOf_eg hi, Option.map_eq_some_iff] at heffect
  obtain ⟨g, hg, rfl⟩ := heffect
  exact ⟨hchecks, g, hg, rfl⟩

/-- A command on EG[e] runs after one on another envelope as it would have run before it: its checks and its effect read
EG[e] alone. -/
theorem exec_afterEg_of_ne {i j : Instr} {e e' : BitVec 3} {s : State} {g g' : EgInst} (hi : egOf i = some e)
    (hne : e ≠ e') (hs : s.fault = .none) (hchecks : firstFailing (checksOf i s) = none)
    (hg : egNext i (s.getEg e) = some g) :
    exec i (s.afterEg j e' g') = .next ((s.afterEg j e' g').afterEg i e g) := by
  have hget : (s.afterEg j e' g').getEg e = s.getEg e := State.getEg_afterEg_ne s j g' hne
  refine exec_done hs ((congrArg firstFailing (checksOf_eg_congr hi hget)).trans hchecks) ?_
  rw [effectOf_eg hi, hget, hg, Option.map_some]

theorem State.eg_afterEg_comm (s : State) (i j : Instr) {e e' : BitVec 3} (g g' : EgInst) (hne : e ≠ e') :
    ((s.afterEg i e g).afterEg j e' g').eg = ((s.afterEg j e' g').afterEg i e g).eg :=
  (congrArg State.eg (State.setEg_comm s e e' g g' hne) :)

/-- The items of a command on EG[e] belong to the level stream of `e`. -/
theorem filterMap_levelFor_newItems {i : Instr} {e e' : BitVec 3} (hi : egOf i = some e) (hne : e ≠ e') (g : EgInst) :
    (newItems i g).filterMap (Result.levelFor e') = [] := by
  by_cases hsample : i = .egSample e
  · subst hsample
    simp [newItems, Result.levelFor, hne]
  · rw [newItems_eq_nil hi hsample, List.filterMap_nil]

theorem State.levelStream_afterEg (s : State) (i : Instr) (e e' : BitVec 3) (g : EgInst) :
    (s.afterEg i e g).levelStream e' =
      s.levelStream e' ++ ((newItems i g).filterMap (Result.levelFor e')).reverse := by
  simp [State.levelStream]

theorem State.levelStream_afterEg_ne (s : State) {i : Instr} {e e' : BitVec 3} (g : EgInst) (hi : egOf i = some e)
    (hne : e ≠ e') : (s.afterEg i e g).levelStream e' = s.levelStream e' := by
  rw [State.levelStream_afterEg, filterMap_levelFor_newItems hi hne, List.reverse_nil, List.append_nil]

/-- At most one of two commands on different envelopes adds to a level stream, so their order does not show in it. -/
theorem State.levelStream_afterEg_comm (s : State) {i j : Instr} {e e' : BitVec 3} (g g' : EgInst)
    (hi : egOf i = some e) (hj : egOf j = some e') (hne : e ≠ e') (e'' : BitVec 3) :
    ((s.afterEg i e g).afterEg j e' g').levelStream e'' = ((s.afterEg j e' g').afterEg i e g).levelStream e'' := by
  by_cases he : e = e''
  · have hj' : e' ≠ e'' := he ▸ hne.symm
    rw [State.levelStream_afterEg_ne _ g' hj hj', State.levelStream_afterEg s i,
      State.levelStream_afterEg _ i, State.levelStream_afterEg_ne _ g' hj hj']
  · rw [State.levelStream_afterEg_ne _ g hi he, State.levelStream_afterEg s j,
      State.levelStream_afterEg _ j, State.levelStream_afterEg_ne _ g hi he]

/-! The number of items an effect drives. -/

theorem length_newItems {i : Instr} {e : BitVec 3} (hi : egOf i = some e) (g : EgInst) :
    (newItems i g).length = (drivesPort i).toNat := by
  rcases egOf_eq_some hi with rfl | ⟨r, l, b, rfl⟩ | rfl | rfl | rfl <;> rfl

/-- Every LA command drives Q or QF (41_log_arith R120). -/
theorem drivesPort_of_isLa {i : Instr} (hi : isLa i = true) : drivesPort i = true := by
  cases i with
  | egNop | egInit | egKeyoff | egKeyon | egSample | fmInit | fmStep => cases hi
  | _ => rfl

/-- An effect adds one item if its command drives a port, and none otherwise (20_memory R59). -/
theorem effectOf_results {i : Instr} {s t : State} (h : effectOf i s = some t) :
    ∃ new : List Result, t.results = new ++ s.results ∧ new.length = (drivesPort i).toNat := by
  rcases unit_cases i with ⟨e, hi⟩ | hla | ⟨alg, sr, ratio, phase0, rfl⟩ | ⟨f, g, rfl⟩
  · rw [effectOf_eg hi, Option.map_eq_some_iff] at h
    obtain ⟨g, -, rfl⟩ := h
    exact ⟨newItems i g, rfl, length_newItems hi g⟩
  · obtain ⟨r, rfl⟩ := effectOf_la hla h
    exact ⟨[r], rfl, congrArg Bool.toNat (drivesPort_of_isLa hla).symm⟩
  · cases h
    exact ⟨[], rfl, rfl⟩
  · cases h
    exact ⟨[_], rfl, rfl⟩

/-! The obligations. -/

/-- Settles O36: both commands write their own envelope in either order, the two writes commute, and each level stream is
extended by one of the two at most. -/
theorem egCommandsOfTwoInstancesCommute : Obligations.EgCommandsOfTwoInstancesCommute := by
  intro i j e e' s t t' hi hj hne hs hexec ht hexec' ht'
  obtain ⟨hchecks, g, hg, rfl⟩ := exec_eg_unfaulted hi hexec ht
  obtain ⟨hchecks', g', hg', rfl⟩ := exec_eg_unfaulted hj hexec' ht'
  exact ⟨(s.afterEg i e g).afterEg j e' g', (s.afterEg j e' g').afterEg i e g,
    exec_afterEg_of_ne hj hne.symm hs hchecks' hg', exec_afterEg_of_ne hi hne hs hchecks hg,
    State.eg_afterEg_comm s i j g g' hne, rfl, hs, hs, State.levelStream_afterEg_comm s g g' hi hj hne⟩

/-- Settles O59, by the three outcomes of a command: only an effect drives items, as many as `drivesPort` says. -/
theorem oneResultPerDrivingCommand : Obligations.OneResultPerDrivingCommand := by
  intro i s t hs hexec
  rcases exec_cases hexec with ⟨hfault, -⟩ | ⟨-, k, hk, rfl⟩ | ⟨-, -, heffect⟩
  · exact absurd hs hfault
  · exact ⟨fun ht => absurd ht hk, fun _ => rfl⟩
  · obtain ⟨new, hresults, hlength⟩ := effectOf_results heffect
    refine ⟨fun _ hdrives => ?_, fun hsilent => ?_⟩
    · rw [hdrives] at hlength
      obtain ⟨r, rfl⟩ := List.length_eq_one_iff.1 hlength
      exact ⟨r, hresults⟩
    · have hdrives : drivesPort i = false :=
        hsilent.resolve_left fun ht => ht ((effectOf_fault heffect).trans hs)
      rw [hdrives] at hlength
      rw [hresults, List.length_eq_zero_iff.1 hlength, List.nil_append]

end Sys2Proof.Machine
end

section
/-! SUPPORT. The encoding chapter (30_encoding): a command word is its three fields (R71), the opcode map is disjoint and
the encoder inverts it (R72 to R75), the decoder answers where a word is legal and nowhere else (R78); the operand ranges
of R76 and the envelope index (60_exceptions R184, R188); and the lengths of the lists that R81 and the host's side write
out. -/

namespace Sys2Proof

open Laws Machine

/-! The fields of a command word (R71). -/

@[simp] theorem unitField_wordOf (unit : BitVec 2) (opr op : BitVec 3) : unitField (wordOf unit opr op) = unit := by
  revert unit opr op
  decide

@[simp] theorem oprField_wordOf (unit : BitVec 2) (opr op : BitVec 3) : oprField (wordOf unit opr op) = opr := by
  revert unit opr op
  decide

@[simp] theorem opField_wordOf (unit : BitVec 2) (opr op : BitVec 3) : opField (wordOf unit opr op) = op := by
  revert unit opr op
  decide

theorem wordOf_fields (w : Byte) : wordOf (unitField w) (oprField w) (opField w) = w := by
  revert w
  decide

/-- The mask of an EG row clears `OPR` and keeps the other two fields (R73). -/
theorem and_egMask (w : Byte) : w &&& 0xC7 = wordOf (unitField w) 0 (opField w) := by
  revert w
  decide

/-! The opcode map (R72). -/

/-- A word that an EG row selects is the row's pattern with an envelope index in it. -/
theorem wordOf_of_and_egMask {w : Byte} {op : BitVec 3} (h : w &&& 0xC7 = wordOf 0 0 op) :
    wordOf 0 (oprField w) op = w := by
  rw [and_egMask] at h
  have hunit : unitField w = 0 := by simpa using congrArg unitField h
  have hop : opField w = op := by simpa using congrArg opField h
  rw [← hunit, ← hop, wordOf_fields]

/-- An LA or FM row selects its pattern alone. -/
theorem eq_of_and_fullMask {w pattern : Byte} (h : w &&& 0xFF = pattern) : pattern = w :=
  h.symm.trans (BitVec.and_allOnes (x := w))

/-- The encoder inverts the opcode map: the command of the row that selects a word has that word. -/
theorem word_command_of_selects {r : Row} (hr : r ∈ opcodeTable) {w : Byte} (hw : r.selects w = true) (p : Ports) :
    (r.op.command (oprField w) p).word = w := by
  have h : w &&& r.mask = r.pattern := eq_of_beq hw
  rcases List.mem_append.1 hr with hr | hr
  · rcases List.mem_append.1 hr with hr | hr
    · simp only [egRows, List.mem_cons, List.not_mem_nil, or_false] at hr
      rcases hr with rfl | rfl | rfl | rfl | rfl <;> exact wordOf_of_and_egMask h
    · simp only [laRows, List.mem_cons, List.not_mem_nil, or_false] at hr
      rcases hr with rfl | rfl | rfl | rfl | rfl | rfl | rfl | rfl <;> exact eq_of_and_fullMask h
  · simp only [fmRows, List.mem_cons, List.not_mem_nil, or_false] at hr
    rcases hr with rfl | rfl <;> exact eq_of_and_fullMask h

/-- Two rows that ask the same of the bits both look at are one row. -/
theorem row_eq_of_patterns_agree : ∀ r ∈ opcodeTable, ∀ r' ∈ opcodeTable,
    r.pattern &&& r'.mask = r'.pattern &&& r.mask → r = r' := by decide

/-- The rows are disjoint: a word that two rows select agrees with both patterns on the bits both look at. -/
theorem row_eq_of_selects {r r' : Row} (hr : r ∈ opcodeTable) (hr' : r' ∈ opcodeTable) {w : Byte}
    (hw : r.selects w = true) (hw' : r'.selects w = true) : r = r' := by
  refine row_eq_of_patterns_agree r hr r' hr' ?_
  calc r.pattern &&& r'.mask
    _ = w &&& r.mask &&& r'.mask := congrArg (· &&& r'.mask) (eq_of_beq hw).symm
    _ = w &&& r'.mask &&& r.mask := by ac_rfl
    _ = r'.pattern &&& r.mask := congrArg (· &&& r.mask) (eq_of_beq hw')

/-- A legal command word (R72): a row selects it, and an EG word selects one of the six envelopes. -/
def LegalWord (w : Byte) : Prop :=
  (∃ r, r ∈ opcodeTable ∧ r.selects w = true) ∧ (unitField w = 0 → oprField w ≤ 5)

/-- R78's list against R72's test, word by word. -/
theorem reservedWord_iff (w : Byte) : reservedWord w ↔ ¬ LegalWord w := by
  unfold reservedWord LegalWord
  revert w
  decide

/-- A command is well formed where its word, if an EG word, has an index in range (R71, R78). -/
theorem wellFormed_of_word {i : Instr} (h : unitField i.word = 0 → oprField i.word ≤ 5) : i.WellFormed := by
  cases i with
  | egNop e | egInit e | egKeyoff e | egKeyon e | egSample e =>
    have he : e ≤ 5 := by simpa [Instr.word] using h
    exact decide_eq_true he
  | _ => rfl

/-! The decoder. -/

theorem decode_of_ok {w : Byte} {o : Op} {e : BitVec 3} (h : decodeWord w = .ok (o, e)) (p : Ports) :
    decode w p = .ok (o.command e p) := by
  simp only [decode, h]

theorem decode_of_error {w : Byte} {why : Reserved} (h : decodeWord w = .error why) (p : Ports) :
    decode w p = .error why := by
  simp only [decode, h]

/-- The row the decoder finds is one of the table that selects the word. -/
theorem mem_and_selects_of_find {w : Byte} {r : Row} (h : opcodeTable.find? (fun r => r.selects w) = some r) :
    r ∈ opcodeTable ∧ r.selects w = true :=
  ⟨List.mem_of_find?_eq_some h, List.find?_some (p := fun r => Row.selects r w) h⟩

theorem decodeWord_of_selects {r : Row} (hr : r ∈ opcodeTable) {w : Byte} (hw : r.selects w = true)
    (he : unitField w = 0 → oprField w ≤ 5) : decodeWord w = .ok (r.op, oprField w) := by
  unfold decodeWord
  split
  · next hnone => exact absurd hw (List.find?_eq_none.1 hnone r hr)
  · next r' hsome =>
    obtain ⟨hr', hw'⟩ := mem_and_selects_of_find hsome
    rw [if_neg fun ⟨h0, h5⟩ => BitVec.not_lt.2 (he h0) h5, row_eq_of_selects hr' hr hw' hw]

theorem decodeWord_of_not_legalWord {w : Byte} (h : ¬ LegalWord w) : ∃ why, decodeWord w = .error why := by
  unfold decodeWord
  split
  · exact ⟨_, rfl⟩
  · next r hsome =>
    have hindex : unitField w = 0 ∧ 5 < oprField w := by
      by_contra hn
      exact h ⟨⟨r, mem_and_selects_of_find hsome⟩, fun h0 => BitVec.not_lt.1 fun h5 => hn ⟨h0, h5⟩⟩
    exact ⟨.egIndex w, if_pos hindex⟩

/-! The obligations about the decoder. -/

/-- Settles O1: the word gives back the row and the index, and these with the ports the operands. -/
theorem decodeOfEncode : Obligations.DecodeOfEncode := fun i hi =>
  (decode_of_ok (WordDecodes.all i hi) i.ports).trans (congrArg Except.ok (command_of_ports i))

/-- Settles O2: on a legal word the decoder answers the command of the one row that selects it, and the encoder gives the
word back; any other word is reserved. -/
theorem everyWordIsOneRowOrReserved : Obligations.EveryWordIsOneRowOrReserved := by
  refine ⟨fun r r' hr hr' w hw hw' => row_eq_of_selects hr hr' hw hw', fun w p => ?_⟩
  by_cases hlegal : LegalWord w
  · have hnot : ¬ reservedWord w := mt (reservedWord_iff w).1 (not_not_intro hlegal)
    obtain ⟨⟨r, hr, hw⟩, he⟩ := hlegal
    have hword := word_command_of_selects hr hw p
    exact .inr ⟨hnot, ⟨r, hr, hw⟩, he, r.op.command (oprField w) p,
      decode_of_ok (decodeWord_of_selects hr hw he) p, hword, wellFormed_of_word (by rwa [hword])⟩
  · obtain ⟨why, hwhy⟩ := decodeWord_of_not_legalWord hlegal
    exact .inl ⟨(reservedWord_iff w).2 hlegal, hlegal, why, decode_of_error hwhy p⟩

/-- Settles O4, by decoding each word. -/
theorem legalWordCounts : Obligations.LegalWordCounts := by
  unfold Obligations.LegalWordCounts
  decide

/-- Settles O5, by decoding each word. -/
theorem sampleWordsDecode : Obligations.SampleWordsDecode := by
  unfold Obligations.SampleWordsDecode
  decide

end Sys2Proof

namespace Sys2Proof.Machine

/-! What each check says of an operand that fails it (30_encoding R76). -/

theorem badPercent_iff {x : BitVec 7} : badPercent x = true ↔ 99 < x.toNat := decide_eq_true_iff

theorem badSensitivity_iff {x : BitVec 8} : badSensitivity x = true ↔ 7 < x.toNat := decide_eq_true_iff

theorem badQrate_iff {x : BitVec 8} : badQrate x = true ↔ 63 < x.toNat := decide_eq_true_iff

theorem badBias_iff {c : Cfg} {b : BitVec 13} : badBias c b = true ↔ olbiasMax c < (b.toNat : Int) := decide_eq_true_iff

/-! Commands with an operand out of its range (60_exceptions R184). -/

/-- The envelope index of an EG command is its first check (60_exceptions R188). -/
theorem checksOf_eg_head {i : Instr} {e : BitVec 3} (h : egOf i = some e) (s : State) :
    ∃ rest, checksOf i s = (badInstance e, .illegalCmd) :: rest := by
  rcases egOf_eq_some h with rfl | ⟨r, l, b, rfl⟩ | rfl | rfl | rfl <;> exact ⟨_, rfl⟩

/-- An LA command checks its operands and nothing else. -/
theorem checksOf_la_cause {i : Instr} (hi : isLa i = true) (s : State) : ∀ x ∈ checksOf i s, x.2 = .badOperand := by
  cases i with
  | egNop | egInit | egKeyoff | egKeyon | egSample | fmInit | fmStep => cases hi
  | _ => simp [checksOf]

theorem exec_la_badOperand {i : Instr} {s : State} (hi : isLa i = true) (hs : s.fault = .none)
    (hbad : ∃ x ∈ checksOf i s, x.1 = true) : exec i s = .next (raise .badOperand i.word s) :=
  exec_fails hs (firstFailing_only hbad fun x hx _ => checksOf_la_cause hi s x hx)

theorem exec_egInit_badOperand {e : BitVec 3} {r l : Vector (BitVec 7) 4} {b : BitVec 13} {s : State}
    (hs : s.fault = .none) (he : e.toNat < 6)
    (hbad : (∃ n : Fin 4, 99 < r[n].toNat) ∨ (∃ n : Fin 4, 99 < l[n].toNat) ∨ olbiasMax Config.cfg < (b.toNat : Int)) :
    exec (.egInit e r l b) s = .next (raise .badOperand (wordOf 0 e 1) s) := by
  refine exec_fails hs ?_
  rw [checksOf, badInstance_eq_false he, firstFailing_cons_false]
  rw [← badStageValues_iff, ← badStageValues_iff, ← badBias_iff] at hbad
  exact firstFailing_only (by simpa using hbad) (by simp)

/-- The topology of an algorithm id in range is well formed (00_scope R8 (g)), so the operands decide. -/
theorem exec_fmInit_badOperand {alg : BitVec 8} {sr : NumOperand} {ratio : Vector NumOperand 6}
    (phase0 : Vector NUM 6) {s : State} (hs : s.fault = .none) (halg : alg.toNat ≤ 31)
    (hbad : ¬ 0 < realValue Config.hostNumber sr.value ∨ ∃ i : Fin 6, realValue Config.hostNumber ratio[i].value < 0) :
    exec (.fmInit alg sr ratio phase0) s = .next (raise .badOperand (wordOf 2 0 1) s) := by
  refine exec_fails hs ?_
  rw [checksOf, badAlgorithm_eq_false halg, firstFailing_cons_false, selected_ok]
  rw [← badSampleRate_iff, ← badRatios_iff] at hbad
  exact firstFailing_only (by simpa using hbad) (by simp)

/-- Settles O13: the first check that fails is one for BAD_OPERAND; and the last clause, since no check reads the
velocity and no velocity makes a sub-expression overflow. -/
theorem outOfRangeOperandRaisesBadOperand : Obligations.OutOfRangeOperandRaisesBadOperand := by
  intro s hs
  refine ⟨fun e r l b he hbad => exec_egInit_badOperand hs he hbad, fun l hl => exec_la_badOperand rfl hs ?_,
    fun v sens hsens => exec_la_badOperand rfl hs ?_, fun ol v sens hbad => exec_la_badOperand rfl hs ?_,
    fun r hr => exec_la_badOperand rfl hs ?_, fun q hq => exec_la_badOperand rfl hs ?_,
    fun l b hbad => exec_la_badOperand rfl hs ?_,
    fun alg sr ratio phase0 halg hbad => exec_fmInit_badOperand phase0 hs halg hbad, fun ol v sens hol hsens => ?_⟩
  · simpa [checksOf, badPercent_iff]
  · simpa [checksOf, badSensitivity_iff]
  · simpa [checksOf, badPercent_iff, badSensitivity_iff]
  · simpa [checksOf, badPercent_iff]
  · simpa [checksOf, badQrate_iff]
  · simpa [checksOf, badPercent_iff, badBias_iff]
  · have hscalevel : firstFailing (checksOf (.laScalevel v sens) s) = none := by
      simp [checksOf, badSensitivity_eq_false hsens]
    have holbias : firstFailing (checksOf (.laOlbias ol v sens) s) = none := by
      simp [checksOf, badPercent_eq_false hol, badSensitivity_eq_false hsens]
    exact ⟨_, _,
      exec_done hs hscalevel (driveQ_fit _ s (scalevelParts_fit Config.cfg_wellFormed _ hsens)), hs,
      exec_done hs holbias (driveQ_fit _ s (olbiasParts_fit Config.cfg_wellFormed _ hol hsens)), hs⟩

/-- Settles O15: the check that fails is the first. -/
theorem illegalInstanceIndex : Obligations.IllegalInstanceIndex := by
  intro i e s hi he hs
  obtain ⟨rest, hchecks⟩ := checksOf_eg_head hi s
  have hbad : badInstance e = true := decide_eq_true he
  exact exec_fails hs (by rw [hchecks, hbad, firstFailing_cons_true])

/-! The host's lists (30_encoding R81, 42_fm_core R162 to R167). -/

theorem repeatCommands_singleton (n : Nat) (i : Instr) : repeatCommands n [i] = List.replicate n i :=
  List.flatten_replicate_singleton

/-- `EG.NOTE` as R81 expands it. -/
theorem noteCommands_eq (e : BitVec 3) (on off : Nat) :
    noteCommands e on off =
      .egKeyon e :: (List.replicate on (.egSample e) ++ .egKeyoff e :: List.replicate off (.egSample e)) := by
  simp [noteCommands, keyCommand, repeatCommands_singleton]

theorem length_noteCommands (e : BitVec 3) (on off : Nat) : (noteCommands e on off).length = on + off + 2 := by
  simp only [noteCommands_eq, List.length_cons, List.length_append, List.length_replicate]
  omega

theorem length_samples_noteCommands (e : BitVec 3) (on off : Nat) :
    ((noteCommands e on off).filter fun i => i == .egSample e).length = on + off := by
  simp [noteCommands_eq]

theorem length_samples_operatorPlan (c : Cfg) (e : BitVec 3) (p : Patch) (events : List NoteEvent) :
    ((operatorPlan c e p events).filter fun i => i == .egSample e).length = (events.map NoteEvent.samples).sum := by
  induction events with
  | nil => rfl
  | cons event rest ih =>
    cases event with
    | sounding note v on off =>
      simp [operatorPlan, notePlan, length_samples_noteCommands, ih, NoteEvent.samples]
    | silence frames => simp [operatorPlan, ih, NoteEvent.samples]

theorem length_pitchContour (events : List NoteEvent) :
    (pitchContour events).length = (events.map NoteEvent.frames).sum := by
  induction events with
  | nil => rfl
  | cons event rest ih => cases event <;> simp [pitchContour, ih, NoteEvent.frames]

/-- Each sounding event takes its own levels, so as many are left as the rest of the timeline asks for. -/
theorem length_operatorContour (events : List NoteEvent) (levels : List S32)
    (h : levels.length = (events.map NoteEvent.samples).sum) :
    (operatorContour events levels).length = (events.map NoteEvent.frames).sum := by
  induction events generalizing levels with
  | nil => rfl
  | cons event rest ih =>
    cases event with
    | sounding note v on off =>
      simp only [List.map_cons, List.sum_cons, NoteEvent.samples] at h
      have hrest := ih (levels.drop (on + off)) (by rw [List.length_drop]; omega)
      have hown : (levels.take (on + off)).length = on + off := List.length_take_of_le (by omega)
      simp only [operatorContour, gainContour, List.length_append, List.length_map, hown, hrest, List.map_cons,
        List.sum_cons, NoteEvent.frames]
    | silence frames =>
      simp only [List.map_cons, List.sum_cons, NoteEvent.samples, zero_add] at h
      simp [operatorContour, silentContour, ih levels h, NoteEvent.frames]

theorem length_upsample (contour : List NUM) (bf : Nat) : (upsample contour bf).length = contour.length * bf := by
  simp [upsample]

theorem length_renderPlan (alg : BitVec 8) (sr : NumOperand) (ratio : Vector NumOperand 6) (pitch : List NUM)
    (gains : Vector (List NUM) 6) (bf : Nat) :
    (renderPlan alg sr ratio pitch gains bf).length = 1 + pitch.length * bf := by
  simp [renderPlan, stepPlan, length_upsample, add_comm]

/-- The document's one note frequency (42 R167). -/
theorem realValue_noteHz (env : Nat → ℝ) : realValue env (noteHz 69) = 440 := by
  simp [noteHz, realValue_int]

/-- Settles O60, by induction on the timeline for the plans and contours over it. -/
theorem hostPlanLengths : Obligations.HostPlanLengths := by
  refine ⟨fun e on off => ⟨length_noteCommands e on off, length_samples_noteCommands e on off⟩,
    length_samples_operatorPlan Config.cfg, fun events => ⟨length_pitchContour events, length_operatorContour events⟩,
    length_upsample, length_renderPlan, fun env v on off f hf => ?_⟩
  rw [pitchContour, pitchContour, List.append_nil] at hf
  rw [List.eq_of_mem_replicate hf, realValue_noteHz]

end Sys2Proof.Machine
end

section
/-! SUPPORT. The EG chapter (40_eg_commands): what `EG.KEYON`, `EG.KEYOFF` and `EG.SAMPLE` leave in an envelope that keeps
its invariant (R93 to R100), that samples reach a hold (R104), the terminal hold and the blocks that no result tells apart
(R101, R102), and the two readings of `EG.KEYON` (R103, 70_reset_and_hazards R211). -/

namespace Sys2Proof.Machine

/-- EG[e] takes commands: no fault is pending, and the envelope is initialised and keeps its invariant. -/
structure State.Live (s : State) (e : BitVec 3) : Prop where
  fault : s.fault = .none
  index : e.toNat < 6
  valid : (s.getEg e).valid = true
  ok : (s.getEg e).Ok Config.cfg

theorem State.Live.checked {s : State} {e : BitVec 3} (h : s.Live e) :
    firstFailing [(badInstance e, .illegalCmd), (!(s.getEg e).valid, .uninit)] = none :=
  firstFailing_eq_none (by simp [badInstance_eq_false h.index, h.valid])

/-- A live envelope stays live when another that keeps the invariant is written in its place. -/
theorem State.Live.setEg {s : State} {e : BitVec 3} (h : s.Live e) {g : EgInst} (hg : g.Ok Config.cfg)
    (hv : g.valid = true) : (s.setEg e g).Live e := by
  have hget : (s.setEg e g).getEg e = g := State.getEg_setEg_same s e g h.index
  exact ⟨h.fault, h.index, by rwa [hget], by rwa [hget]⟩

theorem State.Live.drive {s : State} {e : BitVec 3} (h : s.Live e) (r : Result) : (s.drive r).Live e :=
  ⟨h.fault, h.index, h.valid, h.ok⟩

/-! The key (R94, R95). -/

theorem State.Live.egKeyon {s : State} {e : BitVec 3} (h : s.Live e) :
    exec (.egKeyon e) s = .next (s.setEg e (loadStage Config.cfg { s.getEg e with keydown := true } 0)) := by
  obtain ⟨ha, -⟩ := h.ok.advance_key 0 true nofun
  exact exec_done h.fault h.checked (congrArg (Option.map (s.setEg e)) ha)

theorem State.Live.egKeyoff {s : State} {e : BitVec 3} (h : s.Live e) :
    exec (.egKeyoff e) s = .next (s.setEg e (loadStage Config.cfg { s.getEg e with keydown := false } 3)) := by
  obtain ⟨ha, -⟩ := h.ok.advance_key 3 false fun _ => rfl
  exact exec_done h.fault h.checked (congrArg (Option.map (s.setEg e)) ha)

/-- With the key up a key-off loads the stage in force again: only RISING can differ (R102). -/
theorem EgInst.Ok.loadStage_released {c : Cfg} {g : EgInst} (h : g.Ok c) (hk : g.keydown = false) :
    loadStage c { g with keydown := false } 3 = { g with rising := decide (g.cur.toInt < g.tgt.toInt) } := by
  have hstage := h.released hk
  have hindex : stageIndex g = 3 := congrArg BitVec.toFin hstage
  obtain ⟨htgt, htgtWord, hincWord⟩ := h.loadedAt hindex
  calc loadStage c { g with keydown := false } 3
    _ = { g with
          keydown := false
          stage := 3
          tgt := s32 (target c g.elvl[(3 : Fin 4)].toNat g.olbias.toNat)
          rising := decide (g.cur.toInt < target c g.elvl[(3 : Fin 4)].toNat g.olbias.toNat)
          inc := s32 (rateinc c (qrate g.erate[(3 : Fin 4)].toNat)) } := rfl
    _ = { g with rising := decide (g.cur.toInt < g.tgt.toInt) } := by
      rw [← htgtWord, ← htgt, ← hincWord, ← hstage, ← hk]

/-- RISING is what TGT > CUR would give, but for a level at its target (R105). -/
theorem EgInst.Ok.rising_eq {c : Cfg} {g : EgInst} (h : g.Ok c) :
    g.rising = decide (g.cur.toInt < g.tgt.toInt) ∨ (g.cur = g.tgt ∧ g.rising = true) := by
  cases hr : g.rising with
  | true =>
    rcases (h.below hr).lt_or_eq with hlt | heq
    · exact .inl (decide_eq_true hlt).symm
    · exact .inr ⟨BitVec.toInt_inj.1 heq, rfl⟩
  | false => exact .inl (decide_eq_false (not_lt.2 (h.above hr))).symm

/-- Under the edge-triggered reading `EG.KEYON` is ignored while the key is down (70_reset_and_hazards R211). -/
theorem edgeKeyon_of_down {e : BitVec 3} {s : State} (h : (s.getEg e).keydown = true) : edgeKeyon e s = .next s :=
  if_pos h

theorem edgeKeyon_of_up {e : BitVec 3} {s : State} (h : (s.getEg e).keydown = false) :
    edgeKeyon e s = exec (.egKeyon e) s :=
  if_neg (Bool.eq_false_iff.1 h)

/-- Right after `EG.INIT` a key-on changes nothing under either reading (R103). -/
theorem keyon_after_egInit {e : BitVec 3} {r l : Vector (BitVec 7) 4} {b : BitVec 13} {s : State}
    (hs : s.fault = .none) (he : e.toNat < 6) (hr : ∀ n : Fin 4, r[n].toNat ≤ 99) (hl : ∀ n : Fin 4, l[n].toNat ≤ 99)
    (hb : (b.toNat : Int) ≤ olbiasMax Config.cfg) :
    ∃ t, exec (.egInit e r l b) s = .next t ∧ t.fault = .none ∧ exec (.egKeyon e) t = .next t ∧
      edgeKeyon e t = .next t := by
  have hget : (s.setEg e (initialised r l b)).getEg e = initialised r l b := State.getEg_setEg_same s e _ he
  exact ⟨_, egInit_done hr hl hb hs he, hs, egKeyon_initialised hr hl hb hs he hget,
    edgeKeyon_of_down (congrArg EgInst.keydown hget)⟩

/-! One sample (R96 to R100). -/

/-- Landing on the target, by the stage (R97, R98, R100). -/
theorem land_of_stage {c : Cfg} (hc : c.WellFormed) {g : EgInst} (h : g.Ok c) :
    land c g = some (if g.stage.toNat ≤ 2 then landed c g else { g with cur := g.tgt }) := by
  split
  · next h2 => exact land_below hc h h2
  · next h3 => exact land_last hc h h3

theorem land_cur {c : Cfg} {g g' : EgInst} (h : land c g = some g') : g'.cur = g.tgt := (advance_cur h :)

/-- A sample of a live envelope takes effect and leaves it live. -/
theorem State.Live.egSample {s : State} {e : BitVec 3} (h : s.Live e) {g : EgInst}
    (hg : sampleUpdate Config.cfg (s.getEg e) = some g) :
    ∃ t, exec (.egSample e) s = .next t ∧ t.getEg e = g ∧ t.Live e := by
  obtain ⟨g', hg', hok⟩ := sampleUpdate_ok Config.cfg_wellFormed h.ok
  obtain rfl := Option.some.inj (hg.symm.trans hg')
  obtain ⟨-, -, -, -, hvalid⟩ := sampleUpdate_keeps hg
  exact ⟨_, egSample_done h.fault h.index h.valid hg, State.getEg_setEg_same s e g h.index,
    (h.setEg hok (hvalid.trans h.valid)).drive _⟩

/-- Samples of an envelope that they leave as it is show its level and write nothing (R99, R101). -/
theorem runAll_samples_of_hold {s : State} {e : BitVec 3} (hs : s.fault = .none) (he : e.toNat < 6)
    (hv : (s.getEg e).valid = true) (hg : sampleUpdate Config.cfg (s.getEg e) = some (s.getEg e)) (k : Nat) :
    runAll (List.replicate k (.egSample e)) s =
      .next { s with results := List.replicate k (.levelOut e (s.getEg e).cur) ++ s.results } := by
  induction k generalizing s with
  | zero => rfl
  | succ k ih =>
    have hsample : exec (.egSample e) s = .next (s.drive (.levelOut e (s.getEg e).cur)) := by
      rw [egSample_done hs he hv hg, State.setEg_getEg]
    rw [List.replicate_succ, runAll_cons _ hsample, ih (s := s.drive _) hs hv hg, State.getEg_drive, State.drive_results,
      List.replicate_succ', List.append_assoc]
    rfl

/-! Samples until the envelope holds (R104). -/

/-- Samples of EG[e] lead from `s` to `u`. -/
def SamplesLead (e : BitVec 3) (s u : State) : Prop :=
  ∃ k : Nat, runAll (List.replicate k (.egSample e)) s = .next u

theorem SamplesLead.refl (e : BitVec 3) (s : State) : SamplesLead e s s := ⟨0, rfl⟩

theorem SamplesLead.cons {e : BitVec 3} {s t u : State} (h : exec (.egSample e) s = .next t)
    (hu : SamplesLead e t u) : SamplesLead e s u := by
  obtain ⟨k, hk⟩ := hu
  exact ⟨k + 1, (runAll_cons _ h).trans hk⟩

theorem SamplesLead.trans {e : BitVec 3} {s t u : State} (h : SamplesLead e s t) (hu : SamplesLead e t u) :
    SamplesLead e s u := by
  obtain ⟨k, hk⟩ := h
  obtain ⟨k', hk'⟩ := hu
  exact ⟨k + k', by rw [List.replicate_add, runAll_append hk, hk']⟩

/-- How far the level is from its target. -/
def EgInst.distance (g : EgInst) : Nat := (g.tgt.toInt - g.cur.toInt).natAbs

theorem EgInst.distance_withCur (g : EgInst) (x : S32) :
    ({ g with cur := x } : EgInst).distance = (g.tgt.toInt - x.toInt).natAbs := rfl

/-- An active envelope lands on its target: short of it, each sample comes strictly nearer (R104). -/
theorem State.Live.samples_land {s : State} {e : BitVec 3} (h : s.Live e)
    (ha : (s.getEg e).stage.toNat ≤ 2 ∨ (s.getEg e).keydown = false) :
    ∃ u, SamplesLead e s u ∧ u.Live e ∧ land Config.cfg (s.getEg e) = some (u.getEg e) := by
  induction hd : (s.getEg e).distance using Nat.strong_induction_on generalizing s with
  | _ d ih =>
    rcases sampleUpdate_moves Config.cfg_wellFormed h.ok ha with hland | ⟨x, hx, hmove, hup, hdown⟩
    · obtain ⟨g, hg, -⟩ := land_ok Config.cfg_wellFormed h.ok
      obtain ⟨t, ht, hget, hlive⟩ := h.egSample (hland.trans hg)
      exact ⟨t, .cons ht (.refl e t), hlive, by rw [hget, hg]⟩
    · obtain ⟨t, ht, hget, hlive⟩ := h.egSample hmove
      have hnearer : (t.getEg e).distance < d := by
        rw [← hd, hget, EgInst.distance_withCur, EgInst.distance, hx]
        cases hr : (s.getEg e).rising with
        | true => have := hup hr; omega
        | false => have := hdown hr; omega
      obtain ⟨u, hu, hulive, hland⟩ := ih _ hnearer hlive (by rwa [hget]) rfl
      rw [hget] at hland
      exact ⟨u, .cons ht hu, hulive, hland⟩

/-- With the key down the envelope goes through the stages to stage 3 and waits there (R99, R104). -/
theorem State.Live.samples_sustain {s : State} {e : BitVec 3} (h : s.Live e) (hk : (s.getEg e).keydown = true) :
    ∃ u, SamplesLead e s u ∧ u.Live e ∧ (u.getEg e).stage = 3 ∧ (u.getEg e).keydown = true := by
  induction hn : 3 - (s.getEg e).stage.toNat generalizing s with
  | zero =>
    have h3 : (s.getEg e).stage = 3 := BitVec.eq_of_toNat_eq (show (s.getEg e).stage.toNat = 3 by omega)
    exact ⟨s, .refl e s, h, h3, hk⟩
  | succ n ih =>
    have h2 : (s.getEg e).stage.toNat ≤ 2 := by omega
    obtain ⟨t, ht, htlive, hland⟩ := h.samples_land (.inl h2)
    have hget : t.getEg e = landed Config.cfg (s.getEg e) :=
      Option.some.inj (hland.symm.trans (land_below Config.cfg_wellFormed h.ok h2))
    have hstage : (t.getEg e).stage.toNat = (s.getEg e).stage.toNat + 1 := by
      rw [hget, landed, loadStage_stage, ← stageIndex_succ (by omega)]
      rfl
    obtain ⟨u, hu, hsustain⟩ := ih htlive (by rw [hget]; exact hk) (by omega)
    exact ⟨u, ht.trans hu, hsustain⟩

/-! The terminal hold (R101). -/

/-- Stage 3 with the key up has reached its target. -/
structure EgInst.Held (g : EgInst) : Prop where
  ok : g.Ok Config.cfg
  stage : g.stage = 3
  released : g.keydown = false
  atTarget : g.cur = g.tgt

/-- The envelope is active, but there is no level strictly between its level and its target, and landing writes nothing. -/
theorem EgInst.Held.sampleUpdate_eq {g : EgInst} (h : g.Held) : sampleUpdate Config.cfg g = some g := by
  rcases sampleUpdate_moves Config.cfg_wellFormed h.ok (.inr h.released) with hland | ⟨x, -, -, hup, hdown⟩
  · rw [hland, land_last Config.cfg_wellFormed h.ok (by rw [h.stage]; decide)]
    exact congrArg (fun x => some { g with cur := x }) h.atTarget.symm
  · have hat : g.cur.toInt = g.tgt.toInt := congrArg BitVec.toInt h.atTarget
    cases hr : g.rising with
    | true => have := hup hr; omega
    | false => have := hdown hr; omega

/-- At the target both values of RISING are in the invariant. -/
theorem EgInst.Held.withRising {g : EgInst} (h : g.Held) (r : Bool) : ({ g with rising := r } : EgInst).Held :=
  have hat : g.cur.toInt = g.tgt.toInt := congrArg BitVec.toInt h.atTarget
  ⟨⟨h.ok.rates, h.ok.levels, h.ok.bias, h.ok.curLow, h.ok.curHigh, h.ok.tgtOf, h.ok.incOf, fun _ => hat.le,
    fun _ => hat.ge, h.ok.released⟩, h.stage, h.released, h.atTarget⟩

/-- In stage 3 with the key up, landing on the target is the terminal hold (R104). -/
theorem State.Live.samples_held {s : State} {e : BitVec 3} (h : s.Live e) (h3 : (s.getEg e).stage = 3)
    (hk : (s.getEg e).keydown = false) : ∃ u, SamplesLead e s u ∧ u.Live e ∧ (u.getEg e).Held := by
  obtain ⟨u, hu, hulive, hland⟩ := h.samples_land (.inr hk)
  have hget : { s.getEg e with cur := (s.getEg e).tgt } = u.getEg e :=
    Option.some.inj ((land_last Config.cfg_wellFormed h.ok (by rw [h3]; decide)).symm.trans hland)
  refine ⟨u, hu, hulive, hulive.ok, ?_, ?_, ?_⟩ <;> rw [← hget]
  · exact h3
  · exact hk

/-! Two blocks that no result tells apart (R102). -/

/-- The two blocks are the same, or differ in RISING of an envelope in its terminal hold. -/
def AlikeAt (e : BitVec 3) (s t : State) : Prop :=
  t = s ∨ ∃ r : Bool, (s.getEg e).Held ∧ t = s.setEg e { s.getEg e with rising := r }

theorem AlikeAt.fault_eq {e : BitVec 3} {s t : State} (h : AlikeAt e s t) : t.fault = s.fault := by
  rcases h with rfl | ⟨r, -, rfl⟩ <;> rfl

theorem AlikeAt.results_eq {e : BitVec 3} {s t : State} (h : AlikeAt e s t) : t.results = s.results := by
  rcases h with rfl | ⟨r, -, rfl⟩ <;> rfl

theorem AlikeAt.raise {e : BitVec 3} {s t : State} (h : AlikeAt e s t) (k : Cause) (cw : Byte) :
    AlikeAt e (raise k cw s) (raise k cw t) := by
  rcases h with rfl | ⟨r, hheld, rfl⟩
  · exact .inl rfl
  · exact .inr ⟨r, hheld, rfl⟩

/-- Blocks with the same fault state and checks, whose effects are related, stay related: the same outcome comes of it. -/
theorem exec_related {P : State → State → Prop} {i : Instr} {s t : State} (hfault : t.fault = s.fault)
    (hchecks : checksOf i t = checksOf i s) (hsame : P s t) (hraise : ∀ k, P (raise k i.word s) (raise k i.word t))
    (heffect : Option.Rel P (effectOf i s) (effectOf i t)) :
    ∃ u v, exec i s = .next u ∧ exec i t = .next v ∧ P u v := by
  rw [exec_eq, exec_eq, hchecks]
  refine ⟨_, _, rfl, rfl, ?_⟩
  generalize effectOf i s = us, effectOf i t = vs at heffect ⊢
  by_cases hs : s.fault = .none
  · have ht := hfault.trans hs
    cases hc : firstFailing (checksOf i s) with
    | some k =>
      rw [execute_fails _ _ hs hc, execute_fails _ _ ht hc]
      exact hraise k
    | none =>
      cases heffect with
      | none =>
        rw [execute_overflows _ hs hc rfl, execute_overflows _ ht hc rfl]
        exact hraise .overflow
      | some huv =>
        rw [execute_done _ hs hc rfl, execute_done _ ht hc rfl]
        exact huv
  · rw [execute_faulted _ _ _ hs, execute_faulted _ _ _ (hfault ▸ hs)]
    exact hsame

theorem driveQ_setEg (parts : List Int) (value : Int) (s : State) (e : BitVec 3) (g : EgInst) :
    driveQ parts value (s.setEg e g) = (driveQ parts value s).map (·.setEg e g) := by
  unfold driveQ
  split <;> rfl

/-- The checks of a command that does not select EG[e] do not read it. -/
theorem checksOf_setEg_of_ne {i : Instr} {e : BitVec 3} (hi : egOf i ≠ some e) (s : State) (g : EgInst) :
    checksOf i (s.setEg e g) = checksOf i s := by
  rcases unit_cases i with ⟨e', he'⟩ | hla | ⟨alg, sr, ratio, phase0, rfl⟩ | ⟨f, gains, rfl⟩
  · exact checksOf_eg_congr he' (State.getEg_setEg_ne s e e' g fun hee => hi (he'.trans (congrArg some hee)))
  · cases i with
    | egNop | egInit | egKeyoff | egKeyon | egSample | fmInit | fmStep => cases hla
    | _ => rfl
  · rfl
  · rfl

/-- The effect of a command that does not select EG[e] neither reads nor writes it. -/
theorem effectOf_setEg_of_ne {i : Instr} {e : BitVec 3} (hi : egOf i ≠ some e) (s : State) (g : EgInst) :
    effectOf i (s.setEg e g) = (effectOf i s).map (·.setEg e g) := by
  rcases unit_cases i with ⟨e', he'⟩ | hla | ⟨alg, sr, ratio, phase0, rfl⟩ | ⟨f, gains, rfl⟩
  · have hne : e' ≠ e := fun hee => hi (he'.trans (congrArg some hee))
    have hafter (g' : EgInst) : (s.setEg e g).afterEg i e' g' = (s.afterEg i e' g').setEg e g :=
      congrArg (fun u : State => { u with results := newItems i g' ++ s.results }) (s.setEg_comm e e' g g' hne.symm)
    rw [effectOf_eg he', effectOf_eg he', State.getEg_setEg_ne s e e' g hne, Option.map_map]
    exact congrArg (Option.map · _) (funext hafter)
  · cases i with
    | egNop | egInit | egKeyoff | egKeyon | egSample | fmInit | fmStep => cases hla
    | laGain | laRatio => rfl
    | _ => exact driveQ_setEg ..
  · rfl
  · rfl

/-- No check reads RISING. -/
theorem checksOf_setRising {i : Instr} {e : BitVec 3} {s : State} (hi : egOf i = some e) (he : e.toNat < 6) (r : Bool) :
    checksOf i (s.setEg e { s.getEg e with rising := r }) = checksOf i s := by
  have hget := State.getEg_setEg_same s e { s.getEg e with rising := r } he
  rcases egOf_eq_some hi with rfl | ⟨_, _, _, rfl⟩ | rfl | rfl | rfl <;> simp only [checksOf, hget]

theorem newItems_setRising (i : Instr) (g : EgInst) (r : Bool) : newItems i { g with rising := r } = newItems i g := by
  cases i <;> rfl

/-- In the terminal hold a command that loads a stage overwrites RISING, and the other two write nothing. -/
theorem EgInst.Held.egNext_setRising {i : Instr} {e : BitVec 3} {g : EgInst} (h : g.Held) (hi : egOf i = some e)
    (r : Bool) :
    egNext i { g with rising := r } = egNext i g ∨
      (egNext i g = some g ∧ egNext i { g with rising := r } = some { g with rising := r }) := by
  rcases egOf_eq_some hi with rfl | ⟨_, _, _, rfl⟩ | rfl | rfl | rfl
  · exact .inr ⟨rfl, rfl⟩
  · exact .inl rfl
  · exact .inl rfl
  · exact .inl rfl
  · exact .inr ⟨h.sampleUpdate_eq, (h.withRising r).sampleUpdate_eq⟩

theorem optionRel_alikeAt_refl (e : BitVec 3) (x : Option State) : Option.Rel (AlikeAt e) x x := by
  cases x with
  | none => exact .none
  | some s => exact .some (.inl rfl)

/-- The effects of a command on two blocks that differ in RISING of a held envelope. -/
theorem effectOf_setRising {e : BitVec 3} {s : State} (he : e.toNat < 6) (h : (s.getEg e).Held) (i : Instr) (r : Bool) :
    Option.Rel (AlikeAt e) (effectOf i s) (effectOf i (s.setEg e { s.getEg e with rising := r })) := by
  by_cases hi : egOf i = some e
  · have hafter (g' : EgInst) :
        (s.setEg e { s.getEg e with rising := r }).afterEg i e g' = s.afterEg i e g' :=
      congrArg (fun u : State => { u with results := newItems i g' ++ s.results }) (s.setEg_setEg e _ g')
    rw [effectOf_eg hi, effectOf_eg hi, State.getEg_setEg_same s e _ he, funext hafter]
    rcases h.egNext_setRising hi r with hsame | ⟨hg, hg'⟩
    · rw [hsame]
      exact optionRel_alikeAt_refl e _
    · have hget := State.getEg_afterEg_same s i (s.getEg e) he
      rw [hg, hg']
      refine .some (.inr ⟨r, by rwa [hget], ?_⟩)
      rw [hget, State.afterEg, newItems_setRising]
      exact congrArg (fun u : State => { u with results := newItems i (s.getEg e) ++ s.results })
        (s.setEg_setEg e (s.getEg e) _).symm
  · rw [effectOf_setEg_of_ne hi]
    cases hu : effectOf i s with
    | none => exact .none
    | some u =>
      have hget := effectOf_getEg_of_ne hi hu
      exact .some (.inr ⟨r, by rwa [hget], by rw [hget]⟩)

theorem AlikeAt.exec {e : BitVec 3} {s t : State} (he : e.toNat < 6) (h : AlikeAt e s t) (i : Instr) :
    ∃ u v, exec i s = .next u ∧ exec i t = .next v ∧ AlikeAt e u v := by
  refine exec_related h.fault_eq ?_ h (fun k => h.raise k i.word) ?_
  · rcases h with rfl | ⟨r, -, rfl⟩
    · rfl
    · by_cases hi : egOf i = some e
      · exact checksOf_setRising hi he r
      · exact checksOf_setEg_of_ne hi s _
  · rcases h with rfl | ⟨r, hheld, rfl⟩
    · exact optionRel_alikeAt_refl e _
    · exact effectOf_setRising he hheld i r

theorem AlikeAt.runAll {e : BitVec 3} {s t : State} (he : e.toNat < 6) (h : AlikeAt e s t) (later : List Instr) :
    ∃ u v, runAll later s = .next u ∧ runAll later t = .next v ∧ AlikeAt e u v := by
  induction later generalizing s t with
  | nil => exact ⟨s, t, rfl, rfl, h⟩
  | cons i rest ih =>
    obtain ⟨u, v, hu, hv, huv⟩ := h.exec he i
    rw [runAll_cons rest hu, runAll_cons rest hv]
    exact ih huv

/-! The obligations. -/

/-- Settles O19: the key is down, and stage 0 is loaded over the level as it stands. -/
theorem egKeyonRestartsStageZero : Obligations.EgKeyonRestartsStageZero := fun _ _ hs he hv hok =>
  State.Live.egKeyon ⟨hs, he, hv, hok⟩

/-- Settles O20: the key is up, and stage 3 is loaded over the level as it stands. -/
theorem egKeyoffEntersStageThree : Obligations.EgKeyoffEntersStageThree := fun _ _ hs he hv hok =>
  State.Live.egKeyoff ⟨hs, he, hv, hok⟩

/-- Settles O21: the rising update, by whether `c1` is short of the target. -/
theorem egSampleRises : Obligations.EgSampleRises := by
  rintro e s g hs he rfl hv hok hactive hrising
  refine ⟨riseFrom Config.cfg (s.getEg e), riseTo Config.cfg (s.getEg e), stageIndex (s.getEg e) + 1, _, rfl, rfl, rfl,
    rfl, egSample_done hs he hv ?_⟩
  rw [sampleUpdate_rising Config.cfg_wellFormed hok hactive hrising, land_of_stage Config.cfg_wellFormed hok]
  by_cases hshort : riseTo Config.cfg (s.getEg e) < (s.getEg e).tgt.toInt
  · rw [if_neg (not_le.2 hshort), if_pos hshort]
  · rw [if_pos (not_lt.1 hshort), if_neg hshort]
    rfl

/-- Settles O22: the falling update, by whether `c1` is short of the target. -/
theorem egSampleFalls : Obligations.EgSampleFalls := by
  rintro e s g hs he rfl hv hok hactive hrising
  refine ⟨fallTo (s.getEg e), stageIndex (s.getEg e) + 1, _, rfl, rfl, rfl, egSample_done hs he hv ?_⟩
  rw [sampleUpdate_falling Config.cfg_wellFormed hok hactive hrising, land_of_stage Config.cfg_wellFormed hok]
  by_cases hshort : (s.getEg e).tgt.toInt < fallTo (s.getEg e)
  · rw [if_neg (not_le.2 hshort), if_pos hshort]
  · rw [if_pos (not_lt.1 hshort), if_neg hshort]
    rfl

/-- Settles O23: the envelope is not active. -/
theorem sustainHolds : Obligations.SustainHolds := by
  intro e s hs he hv hstage hkey
  rw [egSample_done hs he hv (sampleUpdate_holds Config.cfg hstage hkey), State.setEg_getEg]

/-- Settles O24: a sample of a held envelope writes nothing. -/
theorem terminalHoldIsPermanent : Obligations.TerminalHoldIsPermanent := by
  intro e s k hs he hv hok hstage hkey hat
  have hheld : (s.getEg e).Held := ⟨hok, hstage, hkey, hat⟩
  rw [← hat]
  exact runAll_samples_of_hold hs he hv hheld.sampleUpdate_eq k

/-- Settles O25: where RISING changes, the envelope is held, and no run tells the two blocks apart. -/
theorem repeatedKeyoffIsIdempotent : Obligations.RepeatedKeyoffIsIdempotent := by
  intro e s hs he hv hok hkey
  have hexec := State.Live.egKeyoff ⟨hs, he, hv, hok⟩
  rw [hok.loadStage_released hkey] at hexec
  refine ⟨_, hexec, rfl, ?_, fun later => ?_⟩
  · rw [State.getEg_setEg_same s e _ he]
    exact fun hne => hok.rising_eq.resolve_left hne.symm
  · have halike : AlikeAt e s
        (s.setEg e { s.getEg e with rising := decide ((s.getEg e).cur.toInt < (s.getEg e).tgt.toInt) }) := by
      rcases hok.rising_eq with hsame | ⟨hat, -⟩
      · rw [← hsame]
        exact .inl (State.setEg_getEg s e)
      · exact .inr ⟨_, ⟨hok, hok.released hkey, hkey, hat⟩, rfl⟩
    obtain ⟨u, v, hu, hv, huv⟩ := halike.runAll he later
    exact ⟨u, v, hu, hv, huv.results_eq.symm⟩

/-- Settles O26: stage 0 is in force and the key down, so the one reading loads the same again and the other ignores it. -/
theorem keyonAfterInitChangesNothing : Obligations.KeyonAfterInitChangesNothing :=
  fun _ _ _ _ _ hs he hr hl hb => keyon_after_egInit hs he hr hl hb

/-- Settles O27: with the key up the edge-triggered reading acts, and right after `EG.INIT` neither changes anything. -/
theorem keyonReadingsAgreeUnderDuty : Obligations.KeyonReadingsAgreeUnderDuty := by
  rintro e s (hup | ⟨r, l, b, s0, hs0, he, hr, hl, hb, hinit⟩)
  · exact edgeKeyon_of_up hup
  · obtain ⟨t, ht, -, hkeyon, hedge⟩ := keyon_after_egInit hs0 he hr hl hb
    obtain rfl := Host.Outcome.next.inj (hinit.symm.trans ht)
    exact hedge.trans hkeyon.symm

/-- Settles O28: a key-off enters stage 3, whose landing is the terminal hold; a held key goes through the stages. -/
theorem envelopeTerminates : Obligations.EnvelopeTerminates := by
  intro e s hs he hv hok
  have hlive : s.Live e := ⟨hs, he, hv, hok⟩
  constructor
  · obtain ⟨-, hok3⟩ := hok.advance_key 3 false fun _ => rfl
    have hget3 := State.getEg_setEg_same s e (loadStage Config.cfg { s.getEg e with keydown := false } 3) he
    obtain ⟨u, ⟨k, hk⟩, hulive, hheld⟩ :=
      (hlive.setEg hok3 hv).samples_held (by rw [hget3]; rfl) (by rw [hget3]; rfl)
    exact ⟨k, u, (runAll_cons _ hlive.egKeyoff).trans hk, hulive.fault, hheld.stage, hheld.released, hheld.atTarget⟩
  · intro hkey
    obtain ⟨u, ⟨k, hk⟩, hulive, hstage, hukey⟩ := hlive.samples_sustain hkey
    exact ⟨k, u, hk, hulive.fault, hstage, hukey⟩

/-- Settles O29: a sample lands on the target, which lies where RISING says, or comes strictly nearer to it. -/
theorem levelMonotoneWithinStage : Obligations.LevelMonotoneWithinStage := by
  intro e s hs he hv hok hactive
  have hlive : s.Live e := ⟨hs, he, hv, hok⟩
  rcases sampleUpdate_moves Config.cfg_wellFormed hok hactive with hland | ⟨x, hx, hmove, hup, hdown⟩
  · obtain ⟨g, hg, -⟩ := land_ok Config.cfg_wellFormed hok
    obtain ⟨t, ht, hget, -⟩ := hlive.egSample (hland.trans hg)
    refine ⟨t, ht, ?_⟩
    rw [hget, land_cur hg]
    exact ⟨fun hr => ⟨hok.below hr, le_rfl⟩, fun _ => ⟨le_rfl, .inr rfl⟩⟩
  · obtain ⟨t, ht, hget, -⟩ := hlive.egSample hmove
    refine ⟨t, ht, ?_⟩
    have hcur : (t.getEg e).cur.toInt = x := by rw [hget, hx]
    rw [hcur]
    exact ⟨fun hr => (hup hr).imp LT.lt.le LT.lt.le, fun hr => (hdown hr).symm.imp LT.lt.le .inl⟩

/-- Settles O17: its one check is the index, and its effect is the state it finds. -/
theorem egNopDoesNothing : Obligations.EgNopDoesNothing := by
  refine fun e s => ⟨rfl, fun hs he => exec_done hs (firstFailing_eq_none ?_) rfl,
    fun hs he => illegalInstanceIndex (.egNop e) e s rfl he hs, fun hs => ?_⟩
  · simp [checksOf, badInstance_eq_false (Nat.lt_succ_of_le he)]
  · rw [exec_eq, execute_faulted _ _ _ hs]

end Sys2Proof.Machine
end

section
/-! SUPPORT. The LA chapter (41_log_arith): an integer command whose operands are in range drives its function's value on Q,
and the word reads back as that value (R120); each function in the spec's own words (R122 to R127); the gain and the ratio
over the reals (R128 to R130). -/

namespace Sys2Proof.Machine

/-! The integer functions (R122 to R127). -/

theorem scaleol_of_lt (c : Cfg) {l : Nat} (h : l < 20) : scaleol c l = c.levelLut ⟨l, h⟩ := dif_pos h

theorem scaleol_of_ge (c : Cfg) {l : Nat} (h : 20 ≤ l) : scaleol c l = 28 + l := dif_neg (not_lt.2 h)

theorem velIndex_eq {v : Int} {vc : Nat} (h : vc / 2 < 64) (hvc : (vc : Int) = min (max v 0) 127) :
    velIndex v = ⟨vc / 2, h⟩ := by
  have hclamp : clampVelocity v = vc := hvc.symm
  exact Fin.ext (by simp only [velIndex, hclamp, Int.toNat_natCast])

/-- R123, with the shifts as a floored quotient and a product (00_scope R11). -/
theorem scalevel_eq (c : Cfg) {v : Int} (s : Nat) {vc : Nat} (h : vc / 2 < 64) (hvc : (vc : Int) = min (max v 0) 127) :
    scalevel c v s = ((s : Int) * ((c.velCurve ⟨vc / 2, h⟩ : Int) - c.velOffset) + 7) / 8 * 16 := by
  rw [← velIndex_eq h hvc]
  rfl

theorem olbias_eq (c : Cfg) (ol : Nat) (v : Int) (s : Nat) :
    olbias c ol v s = max 0 (scaleol c ol * 32 + scalevel c v s) := rfl

theorem qrate_eq_min (r : Nat) : (qrate r : Int) = min ((r : Int) * 41 / 64) 63 := by
  simp only [qrate, Config.rateMul, Config.rateShr, Config.qrateMax]
  omega

/-- The clamp of R125 never binds: `99 * 41 / 64` is 63. -/
theorem qrate_eq_of_le {r : Nat} (h : r ≤ 99) : (qrate r : Int) = (r : Int) * 41 / 64 := by
  rw [qrate_eq_min]
  omega

theorem rateinc_of_lt (c : Cfg) {q : Nat} (h : q < 64) : rateinc c q = c.rateToInc ⟨q, h⟩ := by
  have hmin : min q 63 = q := Nat.min_eq_left (Nat.le_of_lt_succ h)
  simp only [rateinc, hmin]

theorem target_eq (c : Cfg) (l b : Nat) :
    target c l b = max 16 (c.tgtPre (scaleol c l) b) * 2 ^ c.tgtShl := rfl

/-! The integer commands on operands in range. -/

/-- The command `i` drives the integer `x` on Q, whose word reads back as `x`, and changes nothing else. -/
def DrivesQ (i : Instr) (s : State) (x : Int) : Prop :=
  exec i s = .next (s.drive (.q (s32 x))) ∧ (s32 x).toInt = x

/-- A command whose checks pass and whose sub-expressions, the value among them, all fit (R120). -/
theorem drivesQ_of_fit {i : Instr} {s : State} {parts : List Int} {x : Int} (hs : s.fault = .none)
    (hchecks : ∀ c ∈ checksOf i s, c.1 = false) (heffect : effectOf i s = driveQ parts x s)
    (hfit : allFit parts = true) (hmem : x ∈ parts) : DrivesQ i s x :=
  ⟨exec_done hs (firstFailing_eq_none hchecks) (heffect.trans (driveQ_fit x s hfit)),
    s32_toInt (List.all_eq_true.1 hfit x hmem)⟩

section
variable {s : State} (hs : s.fault = .none)
include hs

theorem laScaleol_drives {l : BitVec 7} (hl : l.toNat ≤ 99) :
    DrivesQ (.laScaleol l) s (scaleol Config.cfg l.toNat) :=
  drivesQ_of_fit hs (by simp [checksOf, badPercent_eq_false hl]) rfl (scaleolParts_fit Config.cfg_wellFormed hl)
    (by simp [scaleolParts])

theorem laScalevel_drives (v : BitVec 16) {sens : BitVec 8} (hsens : sens.toNat ≤ 7) :
    DrivesQ (.laScalevel v sens) s (scalevel Config.cfg v.toInt sens.toNat) :=
  drivesQ_of_fit hs (by simp [checksOf, badSensitivity_eq_false hsens]) rfl
    (scalevelParts_fit Config.cfg_wellFormed _ hsens) (by simp [scalevelParts, velocity])

theorem laOlbias_drives {ol : BitVec 7} (v : BitVec 16) {sens : BitVec 8} (hol : ol.toNat ≤ 99) (hsens : sens.toNat ≤ 7) :
    DrivesQ (.laOlbias ol v sens) s (olbias Config.cfg ol.toNat v.toInt sens.toNat) :=
  drivesQ_of_fit hs (by simp [checksOf, badPercent_eq_false hol, badSensitivity_eq_false hsens]) rfl
    (olbiasParts_fit Config.cfg_wellFormed _ hol hsens) (by simp [olbiasParts, velocity])

theorem laQrate_drives {r : BitVec 7} (hr : r.toNat ≤ 99) : DrivesQ (.laQrate r) s (qrate r.toNat) :=
  drivesQ_of_fit hs (by simp [checksOf, badPercent_eq_false hr]) rfl (qrateParts_fit hr) (by simp [qrateParts])

theorem laRateinc_drives {q : BitVec 8} (hq : q.toNat < 64) : DrivesQ (.laRateinc q) s (rateinc Config.cfg q.toNat) :=
  drivesQ_of_fit hs (by simp [checksOf, badQrate_eq_false hq]) rfl (rateincParts_fit Config.cfg_wellFormed _)
    (by simp [rateincParts])

theorem laTarget_drives {l : BitVec 7} {b : BitVec 13} (hl : l.toNat ≤ 99)
    (hb : (b.toNat : Int) ≤ olbiasMax Config.cfg) :
    DrivesQ (.laTarget l b) s (target Config.cfg l.toNat b.toNat) :=
  drivesQ_of_fit hs (by simp [checksOf, badPercent_eq_false hl, badBias_eq_false hb]) rfl
    (targetParts_fit Config.cfg_wellFormed hl hb) (by simp [targetParts])

end

/-! The gain over the reals (R128, R130). -/

section
variable (env : Nat → ℝ)

/-- The first of the two formulas of R128, the one the model evaluates. -/
theorem realValue_gain_quotient (level : S32) :
    realValue env (gain level) = (2 : ℝ) ^ (10 + (level.toInt : ℝ) / 2 ^ 24) / 2 ^ 24 := by
  have hpow : ((16777216 : Int) : ℝ) = 2 ^ 24 := by norm_num
  simp only [gain, realValue_div, realValue_exp2, realValue_add, realValue_int, hpow, Int.cast_ofNat]

/-- The second formula of R128. -/
theorem realValue_gain (level : S32) : realValue env (gain level) = (2 : ℝ) ^ ((level.toInt : ℝ) / 2 ^ 24 - 14) := by
  have hexp : (10 : ℝ) + (level.toInt : ℝ) / 2 ^ 24 = (level.toInt : ℝ) / 2 ^ 24 - 14 + (24 : ℕ) := by
    push_cast
    ring
  rw [realValue_gain_quotient, hexp, Real.rpow_add_natCast two_ne_zero]
  exact mul_div_cancel_right₀ _ (by positivity)

theorem gain_pos (a : S32) : 0 < realValue env (gain a) := by
  rw [realValue_gain]
  exact Real.rpow_pos_of_pos two_pos _

theorem gain_strictMono {a b : S32} (h : a.toInt < b.toInt) : realValue env (gain a) < realValue env (gain b) := by
  have hcast : (a.toInt : ℝ) < b.toInt := Int.cast_lt.2 h
  rw [realValue_gain, realValue_gain]
  exact Real.rpow_lt_rpow_of_exponent_lt one_lt_two (by linarith)

/-- The exponents of R128 add up, since the one of `14 * 2^24` is 0 (R130). -/
theorem gain_mul {a b d : S32} (h : d.toInt = a.toInt + b.toInt - 14 * 2 ^ 24) :
    realValue env (gain d) = realValue env (gain a) * realValue env (gain b) := by
  have hexp : (d.toInt : ℝ) / 2 ^ 24 - 14 = ((a.toInt : ℝ) / 2 ^ 24 - 14) + ((b.toInt : ℝ) / 2 ^ 24 - 14) := by
    rw [h]
    push_cast
    ring
  rw [realValue_gain, realValue_gain, realValue_gain, hexp, Real.rpow_add two_pos]

theorem gain_double {a b : S32} (h : b.toInt = a.toInt + 2 ^ 24) :
    realValue env (gain b) = 2 * realValue env (gain a) := by
  have hexp : (b.toInt : ℝ) / 2 ^ 24 - 14 = 1 + ((a.toInt : ℝ) / 2 ^ 24 - 14) := by
    rw [h]
    push_cast
    ring
  rw [realValue_gain, realValue_gain, hexp, Real.rpow_add two_pos, Real.rpow_one]

theorem gain_unit {a : S32} (h : a.toInt = 14 * 2 ^ 24) : realValue env (gain a) = 1 := by
  rw [realValue_gain, h]
  norm_num

/-! The ratio over the reals (R129). -/

theorem realValue_ratioBase (c : BitVec 8) :
    realValue env (ratioBase c) = if c = 0 then 0.5 else (c.toNat : ℝ) := by
  unfold ratioBase
  split
  · rw [realValue_div, realValue_int, realValue_int]
    norm_num
  · rw [realValue_int, Int.cast_natCast]

theorem realValue_ratio (c fn t : BitVec 8) :
    realValue env (ratio c fn t) =
      (realValue env (ratioBase c) + realValue env (ratioBase c) / 100 * (fn.toNat : ℝ)) *
        (2 : ℝ) ^ (((t.toNat : ℝ) - 24) / 12) := by
  simp only [ratio, realValue_mul, realValue_add, realValue_div, realValue_exp2, realValue_int, Int.cast_ofNat,
    Int.cast_natCast, Int.cast_sub]

end

/-! The frame. -/

/-- An LA command that takes effect drives Q or QF, and no other port (R120). -/
theorem effectOf_la_port {i : Instr} {s t : State} (hi : isLa i = true) (h : effectOf i s = some t) :
    ∃ r, t = s.drive r ∧ ((∃ v, r = .q v) ∨ ∃ v, r = .qf v) := by
  cases i with
  | laScaleol l => exact ⟨_, driveQ_some h, .inl ⟨_, rfl⟩⟩
  | laScalevel v sens => exact ⟨_, driveQ_some h, .inl ⟨_, rfl⟩⟩
  | laOlbias ol v sens => exact ⟨_, driveQ_some h, .inl ⟨_, rfl⟩⟩
  | laQrate r => exact ⟨_, driveQ_some h, .inl ⟨_, rfl⟩⟩
  | laRateinc q => exact ⟨_, driveQ_some h, .inl ⟨_, rfl⟩⟩
  | laTarget l b => exact ⟨_, driveQ_some h, .inl ⟨_, rfl⟩⟩
  | laGain level => exact ⟨_, (Option.some.inj h).symm, .inr ⟨_, rfl⟩⟩
  | laRatio c fn t => exact ⟨_, (Option.some.inj h).symm, .inr ⟨_, rfl⟩⟩
  | _ => cases hi

/-! The obligations. -/

/-- Settles O37: the value is SCALEOL, read on each side of the breakpoint. -/
theorem scaleolResult : Obligations.ScaleolResult := fun _ _ hs hl =>
  ⟨_, fun h => scaleol_of_lt _ h, fun h => scaleol_of_ge _ h, laScaleol_drives hs hl⟩

/-- Settles O38: the value is SCALEVEL, its curve read at the given clamped velocity. -/
theorem scalevelResult : Obligations.ScalevelResult := fun v sens _ _ h hs hsens hvc =>
  ⟨_, scalevel_eq Config.cfg sens.toNat h hvc, laScalevel_drives hs v hsens⟩

/-- Settles O39: the three commands drive SCALEOL, SCALEVEL and OLBIAS, the last a function of the other two. -/
theorem olbiasResult : Obligations.OlbiasResult := by
  intro ol v sens s hs hol hsens
  obtain ⟨hx, hxWord⟩ := laScaleol_drives hs hol
  obtain ⟨hy, hyWord⟩ := laScalevel_drives hs v hsens
  exact ⟨_, _, _, hx, hxWord, hy, hyWord, olbias_eq Config.cfg _ _ _, laOlbias_drives hs v hol hsens⟩

/-- Settles O40: the value is QRATE, which its clamp leaves alone on 0..99. -/
theorem qrateResult : Obligations.QrateResult := by
  intro r s hs hr
  obtain ⟨hexec, hword⟩ := laQrate_drives hs hr
  exact ⟨_, qrate_eq_min _, hexec, hword, qrate_eq_of_le hr⟩

/-- Settles O41: the value is the INCROM entry, positive by R8 (c). -/
theorem rateincResult : Obligations.RateincResult := by
  intro q s h hs
  obtain ⟨hexec, hword⟩ := laRateinc_drives hs h
  rw [rateinc_of_lt _ h] at hexec hword
  exact ⟨hexec, hword, Config.cfg_wellFormed.incPos _⟩

/-- Settles O42: the value is TARGET of what `LA.SCALEOL` drives, positive by R8 (e). -/
theorem targetResult : Obligations.TargetResult := by
  intro l b s hs hl hb
  obtain ⟨hx, hxWord⟩ := laScaleol_drives hs hl
  obtain ⟨hz, hzWord⟩ := laTarget_drives hs hl hb
  obtain ⟨hpos, -⟩ := Config.cfg_wellFormed.targetRange _ _ hl hb
  exact ⟨_, _, hx, hxWord, target_eq Config.cfg _ _, hz, hzWord, hpos⟩

/-- Settles O43: `LA.GAIN` checks nothing, and the model's gain has both values. -/
theorem gainResult : Obligations.GainResult := fun level _ hs =>
  ⟨gain level, exec_done hs rfl rfl, fun env => ⟨realValue_gain_quotient env level, realValue_gain env level⟩⟩

/-- Settles O44: laws of the exponential, through the second formula of R128. -/
theorem gainLaws : Obligations.GainLaws := fun env a _ _ =>
  ⟨gain_pos env a, gain_strictMono env, gain_double env, gain_mul env, gain_unit env⟩

/-- Settles O45: `LA.RATIO` checks nothing, and the base of the model's ratio is the given one. -/
theorem ratioResult : Obligations.RatioResult := by
  refine fun c fn t s hs => ⟨ratio c fn t, exec_done hs rfl rfl, fun env base hbase => ?_⟩
  rw [realValue_ratio, realValue_ratioBase, ← hbase]

/-- Settles O46: an LA command is ignored, raises a cause, or drives its item. -/
theorem laCommandFrame : Obligations.LaCommandFrame := by
  intro i s t hi h
  rcases exec_cases h with ⟨hfaulted, rfl⟩ | ⟨hs, k, hk, rfl⟩ | ⟨hs, -, heffect⟩
  · exact ⟨rfl, rfl, rfl, .inl ⟨rfl, rfl, fun hs => absurd hs hfaulted, fun _ => rfl⟩⟩
  · exact ⟨rfl, rfl, rfl, .inr ⟨hs, hk, rfl⟩⟩
  · obtain ⟨r, rfl, hport⟩ := effectOf_la_port hi heffect
    exact ⟨rfl, rfl, rfl, .inl ⟨rfl, rfl, fun _ => ⟨r, rfl, hport⟩, fun hfaulted => absurd hs hfaulted⟩⟩

end Sys2Proof.Machine
end

section
/-! SUPPORT. The sign of an expression over the reals (42_fm_core R153, R175): every real number has one sign, the signs an
expression shows are its value's, and so every expression is the value of one operand. -/

namespace Sys2Proof.Machine

/-! The sign of a real number. -/

theorem exists_hasSign (x : ℝ) : ∃ sign, HasSign x sign := by
  rcases lt_trichotomy x 0 with h | h | h
  · exact ⟨.neg, h⟩
  · exact ⟨.zero, h⟩
  · exact ⟨.pos, h⟩

theorem HasSign.mul {x y : ℝ} {s t : Sign} (hx : HasSign x s) (hy : HasSign y t) : HasSign (x * y) (timesSign s t) := by
  cases s with
  | zero => exact mul_eq_zero_of_left hx y
  | pos =>
    cases t with
    | neg => exact mul_neg_of_pos_of_neg hx hy
    | zero => exact mul_eq_zero_of_right x hy
    | pos => exact mul_pos hx hy
  | neg =>
    cases t with
    | neg => exact mul_pos_of_neg_of_neg hx hy
    | zero => exact mul_eq_zero_of_right x hy
    | pos => exact mul_neg_of_neg_of_pos hx hy

theorem HasSign.inv {x : ℝ} {s : Sign} (h : HasSign x s) : HasSign x⁻¹ s := by
  cases s with
  | neg => exact inv_lt_zero.2 h
  | zero => exact inv_eq_zero.2 h
  | pos => exact inv_pos.2 h

theorem HasSign.div {x y : ℝ} {s t : Sign} (hx : HasSign x s) (hy : HasSign y t) : HasSign (x / y) (timesSign s t) := by
  rw [div_eq_mul_inv]
  exact hx.mul hy.inv

theorem timesSign_pos (s : Sign) : timesSign s .pos = s := by
  cases s <;> rfl

/-! Signs that an expression may or may not show. -/

/-- The sign shown of `x`, if one is, is the sign of `x`. -/
def Shows (x : ℝ) (shown : Option Sign) : Prop := ∀ sign, shown = some sign → HasSign x sign

theorem shows_none (x : ℝ) : Shows x none := nofun

theorem HasSign.shows {x : ℝ} {s : Sign} (h : HasSign x s) : Shows x (some s) := by
  rintro _ ⟨⟩
  exact h

theorem Shows.hasSign {x : ℝ} {s : Sign} (h : Shows x (some s)) : HasSign x s := h s rfl

theorem Shows.add {x y : ℝ} {s t : Option Sign} (hx : Shows x s) (hy : Shows y t) : Shows (x + y) (sumSign s t) := by
  unfold sumSign
  split
  · rwa [show x = 0 from hx.hasSign, zero_add]
  · rwa [show y = 0 from hy.hasSign, add_zero]
  · exact HasSign.shows (s := .pos) (add_pos hx.hasSign hy.hasSign)
  · exact HasSign.shows (s := .neg) (add_neg hx.hasSign hy.hasSign)
  · exact shows_none _

theorem Shows.mul {x y : ℝ} {s t : Option Sign} (hx : Shows x s) (hy : Shows y t) :
    Shows (x * y) (productSign s t) := by
  unfold productSign
  split
  · exact HasSign.shows (s := .zero) (mul_eq_zero_of_left hx.hasSign y)
  · exact HasSign.shows (s := .zero) (mul_eq_zero_of_right x hy.hasSign)
  · exact (hx.hasSign.mul hy.hasSign).shows
  · exact shows_none _

theorem Shows.div {x y : ℝ} {s t : Option Sign} (hx : Shows x s) (hy : Shows y t) :
    Shows (x / y) (quotientSign s t) := by
  unfold quotientSign
  split
  · exact shows_none _
  · exact (hx.hasSign.div hy.hasSign).shows
  · exact shows_none _

/-! The sign an expression shows. -/

/-- The fraction of an expression is its real value, over a positive denominator. -/
theorem realValue_of_fraction (env : Nat → ℝ) {x : NUM} {n : Int} {d : Nat} (h : fraction x = some (n, d)) :
    0 < d ∧ realValue env x = (n : ℝ) / d := by
  induction x generalizing n d with
  | int k =>
    cases h
    exact ⟨one_pos, by rw [realValue_int, Nat.cast_one, div_one]⟩
  | add x y ihx ihy =>
    rw [fraction] at h
    split at h
    · next a b c e hx hy =>
      cases h
      obtain ⟨hb, hx⟩ := ihx hx
      obtain ⟨he, hy⟩ := ihy hy
      refine ⟨Nat.mul_pos hb he, ?_⟩
      rw [realValue_add, hx, hy]
      push_cast
      field_simp
    · cases h
  | mul x y ihx ihy =>
    rw [fraction] at h
    split at h
    · next a b c e hx hy =>
      cases h
      obtain ⟨hb, hx⟩ := ihx hx
      obtain ⟨he, hy⟩ := ihy hy
      refine ⟨Nat.mul_pos hb he, ?_⟩
      rw [realValue_mul, hx, hy, div_mul_div_comm]
      push_cast
      rfl
    · cases h
  | div x y ihx ihy =>
    rw [fraction] at h
    split at h
    · next a b c e hx hy =>
      obtain ⟨hb, hx⟩ := ihx hx
      obtain ⟨he, hy⟩ := ihy hy
      have habs : (c.natAbs : ℝ) = |(c : ℝ)| := by rw [Nat.cast_natAbs, Int.cast_abs]
      rw [realValue_div, hx, hy, div_div_div_eq]
      split at h
      · cases h
      · next hc =>
        split at h
        · next hpos =>
          cases h
          refine ⟨Nat.mul_pos hb (Int.natAbs_pos.2 hc), ?_⟩
          push_cast
          rw [habs, abs_of_pos (Int.cast_pos.2 hpos)]
        · next hpos =>
          cases h
          refine ⟨Nat.mul_pos hb (Int.natAbs_pos.2 hc), ?_⟩
          push_cast
          have hneg : c < 0 := by omega
          rw [habs, abs_of_neg (Int.cast_lt_zero.2 hneg), mul_neg, neg_div_neg_eq]
    · cases h
  | given | twoPi | sin | exp2 | wrap => cases h

theorem shows_shownSign (env : Nat → ℝ) (x : NUM) : Shows (realValue env x) (shownSign x) := by
  induction x with
  | int n => exact (hasSign_intSign n).shows
  | twoPi => exact HasSign.shows (s := .pos) two_pi_pos'
  | exp2 x => exact HasSign.shows (s := .pos) (Real.rpow_pos_of_pos two_pos _)
  | mul x y ihx ihy => exact ihx.mul ihy
  | div x y ihx ihy => exact ihx.div ihy
  | add x y ihx ihy =>
    rw [shownSign]
    split
    · next n d hfraction =>
      obtain ⟨hd, hvalue⟩ := realValue_of_fraction env hfraction
      have hsign : HasSign ((n : ℝ) / d) (timesSign (intSign n) .pos) := (hasSign_intSign n).div (Nat.cast_pos.2 hd)
      rw [hvalue, ← timesSign_pos (intSign n)]
      exact hsign.shows
    · exact ihx.add ihy
  | given | sin | wrap => exact shows_none _

/-! The operands of a value. -/

theorem exists_numOperand (x : NUM) : ∃ p : NumOperand, p.value = x :=
  have ⟨sign, h⟩ := exists_hasSign (realValue Config.hostNumber x)
  ⟨⟨x, sign, h⟩, rfl⟩

/-- An operand brings the sign its value has, and no other. -/
theorem numOperand_sign_eq {p : NumOperand} {s : Sign} (h : HasSign (realValue Config.hostNumber p.value) s) :
    p.sign = s := by
  cases s with
  | neg => exact p.sign_eq_neg.2 h
  | pos => exact p.sign_eq_pos.2 h
  | zero =>
    have h0 : realValue Config.hostNumber p.value = 0 := h
    cases hs : p.sign with
    | neg => exact absurd h0 (p.sign_eq_neg.1 hs).ne
    | zero => rfl
    | pos => exact absurd h0 (p.sign_eq_pos.1 hs).ne'

/-- No two operands have one value. -/
theorem numOperand_eq_of_value {p q : NumOperand} (h : p.value = q.value) : p = q := by
  have hsign : p.sign = q.sign := numOperand_sign_eq (h ▸ q.holds)
  cases p
  cases q
  cases h
  cases hsign
  rfl

/-- With an algorithm id in range `FM.INIT` loads the core or raises BAD_OPERAND, by the values of its operands (R153). -/
theorem fmInit_badOperand_iff (alg : BitVec 8) (sr : NumOperand) (ratio : Vector NumOperand 6) (phase0 : Vector NUM 6)
    {s : State} (hs : s.fault = .none) (halg : alg.toNat ≤ 31) :
    ∃ t : State, exec (.fmInit alg sr ratio phase0) s = .next t ∧
      (t.fault = .badOperand ↔
        ¬ 0 < realValue Config.hostNumber sr.value ∨ ∃ i : Fin 6, realValue Config.hostNumber ratio[i].value < 0) := by
  by_cases hbad : ¬ 0 < realValue Config.hostNumber sr.value ∨
      ∃ i : Fin 6, realValue Config.hostNumber ratio[i].value < 0
  · exact ⟨_, exec_fmInit_badOperand phase0 hs halg hbad, iff_of_true rfl hbad⟩
  · obtain ⟨hsr, hratio⟩ := not_or.1 hbad
    obtain ⟨fm, hexec, -⟩ := fmInitLoadsTheCore alg sr ratio phase0 s hs halg (not_not.1 hsr)
      fun i => not_lt.1 (not_exists.1 hratio i)
    refine ⟨_, hexec, iff_of_false ?_ hbad⟩
    rw [State.setFm_fault, hs]
    decide

/-- Settles O58: a shown sign is the real one, by induction on the expression; an operand's sign is its value's; and the
checks of `FM.INIT` are on these values. -/
theorem shownSignIsTheRealSign : Obligations.ShownSignIsTheRealSign := by
  refine ⟨fun env x => ⟨shows_shownSign env x .pos, shows_shownSign env x .neg, shows_shownSign env x .zero, ?_⟩,
    fun alg sr ratio phase0 s hs halg => fmInit_badOperand_iff alg sr ratio phase0 hs halg⟩
  obtain ⟨p, rfl⟩ := exists_numOperand x
  refine ⟨p, rfl, fun p' h => numOperand_eq_of_value h,
    fun sign h => numOperand_sign_eq (shows_shownSign Config.hostNumber p.value sign h), ?_⟩
  rintro ⟨y, hy⟩ hneg
  have hlt := p.sign_eq_neg.1 hneg
  rw [hy, realValue_wrap] at hlt
  exact absurd (wrapReal_range _).1 (not_le.2 hlt)

end Sys2Proof.Machine
end

section
/-! SUPPORT. The FM chapter (42_fm_core): one `FM.STEP` over the reals (R154 to R160), the bound on its sample (R170), and
runs of `FM.STEP`: the phase after a run (R161) and a run that goes on in a second core (R168). -/

namespace Sys2Proof.Machine

/-! One sample (R154 to R160). -/

theorem realValue_advancedPhases (env : Nat → ℝ) (fm : FmCore) (f : NUM) (i : Fin 6) :
    realValue env (advancedPhases fm f)[i] = wrapReal (realValue env fm.phase[i] +
      2 * Real.pi * (1 / realValue env fm.sr) * realValue env f * realValue env fm.ratio[i]) := by
  rw [advancedPhases_get]
  simp only [realValue_wrap, realValue_add, realValue_mul, realValue_div, realValue_twoPi, realValue_int, Int.cast_one]

/-- Y_RAW is the carrier sum over the working phases (R158). -/
theorem realValue_sampleRaw (env : Nat → ℝ) (top : BitVec 42) (g p : Vector NUM 6) :
    realValue env (sampleRaw top g p) =
      carrierSumReal top (reals env g) (fun m => realValue env (modulationPass top g p)[m]) := by
  rw [sampleRaw, realValue_carrierSum, carriers_sum]
  rfl

/-- With no modulation the working phases are the phases. -/
theorem realValue_sampleRaw_of_none (env : Nat → ℝ) {top : BitVec 42} (h : ∀ c m : Fin 6, modulates top c m = false)
    (g p : Vector NUM 6) :
    realValue env (sampleRaw top g p) = carrierSumReal top (reals env g) (reals env p) := by
  rw [realValue_sampleRaw, modulationPass_of_none h]
  rfl

/-! What an `FM.STEP` that takes effect leaves. -/

section
variable (c : Cfg) (f : NUM) (g : Vector NUM 6) (s : State)

@[simp] theorem fmStepped_fault : (fmStepped c f g s).fault = s.fault := rfl

@[simp] theorem fmStepped_fm :
    (fmStepped c f g s).fm = { s.fm with phase := advancedPhases s.fm f } := rfl

theorem fmStepped_audioOut :
    (fmStepped c f g s).audioOut = some (sampleRaw (selected c s.fm.alg) g (advancedPhases s.fm f),
      normalised (selected c s.fm.alg) (sampleRaw (selected c s.fm.alg) g (advancedPhases s.fm f))) := rfl

theorem fmStepped_audioStream :
    (fmStepped c f g s).audioStream = s.audioStream ++
      [normalised (selected c s.fm.alg) (sampleRaw (selected c s.fm.alg) g (advancedPhases s.fm f))] :=
  List.reverse_cons ..

end

/-- Where a step adds nothing, a phase that is its own representative stays (R171). -/
theorem realValue_advancedPhases_of_zero {env : Nat → ℝ} {fm : FmCore} {f : NUM} {i : Fin 6}
    (hphase : wrapReal (realValue env fm.phase[i]) = realValue env fm.phase[i])
    (h : realValue env f = 0 ∨ realValue env fm.ratio[i] = 0) :
    realValue env (advancedPhases fm f)[i] = realValue env fm.phase[i] := by
  have hzero : 2 * Real.pi * (1 / realValue env fm.sr) * realValue env f * realValue env fm.ratio[i] = 0 := by
    rcases h with h | h <;> rw [h] <;> ring
  rw [realValue_advancedPhases, hzero, add_zero, hphase]

/-- The phases of a core that keeps its invariant are their own representatives (10_state R33). -/
theorem FmCore.Ok.wrapReal_phase {fm : FmCore} (h : fm.Ok) (env : Nat → ℝ) (i : Fin 6) :
    wrapReal (realValue env fm.phase[i]) = realValue env fm.phase[i] := by
  obtain ⟨x, hx⟩ := h.phases i
  rw [hx, realValue_wrap, wrapReal_wrapReal]

/-! The bound (R170). -/

theorem abs_carrierSumReal_le (top : BitVec 42) (g W : Fin 6 → ℝ) :
    |carrierSumReal top g W| ≤ ∑ c : Fin 6, if isCarrier top c = true then |g c| else 0 := by
  refine (Finset.abs_sum_le_sum_abs _ _).trans (Finset.sum_le_sum fun c _ => ?_)
  split
  · rw [abs_mul]
    exact mul_le_of_le_one_right (abs_nonneg _) (Real.abs_sin_le_one _)
  · exact abs_zero.le

/-- A sum over the carriers of terms at most `b` is at most `b` times their number. -/
theorem carriers_sum_le (top : BitVec 42) {h : Fin 6 → ℝ} {b : ℝ} (hb : ∀ c, h c ≤ b) :
    (∑ c : Fin 6, if isCarrier top c = true then h c else 0) ≤ carrierCount top * b := by
  rw [← carriers_sum, carrierCount, ← nsmul_eq_mul, ← List.length_map (as := carriers top) h]
  refine List.sum_le_card_nsmul _ b fun x hx => ?_
  obtain ⟨c, -, rfl⟩ := List.mem_map.1 hx
  exact hb c

/-- A Y_RAW of at most 8 for each carrier is normalised to at most 2. -/
theorem abs_normalised_le {env : Nat → ℝ} {top : BitVec 42} (hok : topologyOk top = true) {y : NUM}
    (h : |realValue env y| ≤ carrierCount top * 8) : |realValue env (normalised top y)| ≤ 2 := by
  have hcount : (1 : ℝ) ≤ carrierCount top := by exact_mod_cast ((topologyOk_iff top).1 hok).2
  have hpos : (0 : ℝ) < 4 * carrierCount top := by linarith
  rw [realValue_normalised, abs_div, abs_of_pos hpos, div_le_iff₀ hpos]
  linarith

/-! Runs of `FM.STEP`. -/

/-- The state after an `FM.STEP` for each item, where all take effect. -/
def State.fmSteps (s : State) (items : List (NUM × Vector NUM 6)) : State :=
  items.foldl (fun s x => fmStepped Config.cfg x.1 x.2 s) s

theorem runAll_stepCommands (items : List (NUM × Vector NUM 6)) {s : State} (hs : s.fault = .none)
    (hv : s.fm.valid = true) : runAll (stepCommands items) s = .next (s.fmSteps items) := by
  induction items generalizing s with
  | nil => rfl
  | cons x items ih => exact (runAll_cons _ (fmStep_done hs hv)).trans (ih hs hv)

theorem State.fmSteps_fault (s : State) (items : List (NUM × Vector NUM 6)) : (s.fmSteps items).fault = s.fault := by
  induction items generalizing s with
  | nil => rfl
  | cons x items ih => exact (ih _).trans (fmStepped_fault ..)

/-- The wrapped sum of a phase and its increments (R161): wrapping on the way makes no difference. -/
theorem State.realValue_fmSteps_phase {env : Nat → ℝ} (items : List (NUM × Vector NUM 6)) {s : State} {i : Fin 6}
    (hphase : wrapReal (realValue env s.fm.phase[i]) = realValue env s.fm.phase[i]) :
    realValue env (s.fmSteps items).fm.phase[i] = wrapReal (realValue env s.fm.phase[i] +
      2 * Real.pi / realValue env s.fm.sr * realValue env s.fm.ratio[i] *
        (items.map fun x => realValue env x.1).sum) := by
  induction items generalizing s with
  | nil =>
    rw [List.map_nil, List.sum_nil, mul_zero, add_zero, hphase]
    rfl
  | cons x items ih =>
    have hstep := realValue_advancedPhases env s.fm x.1 i
    have htail := ih (s := fmStepped Config.cfg x.1 x.2 s) (by rw [fmStepped_fm, hstep, wrapReal_wrapReal])
    rw [fmStepped_fm, hstep, wrapReal_add_wrapReal] at htail
    refine htail.trans (congrArg wrapReal ?_)
    rw [List.map_cons, List.sum_cons]
    ring

/-! A run that goes on in a second core (R168). -/

theorem FmCore.SameReals.advancedPhases {env : Nat → ℝ} {a b : FmCore} (h : FmCore.SameReals env a b) (f : NUM)
    (i : Fin 6) : realValue env (advancedPhases a f)[i] = realValue env (Machine.advancedPhases b f)[i] := by
  obtain ⟨-, -, hsr, hratio, hphase⟩ := h
  rw [realValue_advancedPhases, realValue_advancedPhases, hsr, hratio, hphase]

/-- One step of two cores that hold the same reals shows the same sample. -/
theorem FmCore.SameReals.sample {env : Nat → ℝ} {a b : FmCore} (h : FmCore.SameReals env a b) (f : NUM)
    (g : Vector NUM 6) :
    realValue env (normalised (selected Config.cfg a.alg) (sampleRaw (selected Config.cfg a.alg) g
      (Machine.advancedPhases a f))) =
    realValue env (normalised (selected Config.cfg b.alg) (sampleRaw (selected Config.cfg b.alg) g
      (Machine.advancedPhases b f))) := by
  have ⟨_, halg, _⟩ := h
  rw [realValue_normalised, realValue_normalised, halg,
    realValue_sampleRaw_congr env (selected_ok b.alg) g (h.advancedPhases f)]

/-- A run of two cores that hold the same reals shows the same samples and keeps them so. -/
theorem FmCore.SameReals.fmSteps {env : Nat → ℝ} {s v : State} (h : FmCore.SameReals env s.fm v.fm)
    (items : List (NUM × Vector NUM 6)) :
    ∃ xs ys : List NUM, (s.fmSteps items).audioStream = s.audioStream ++ xs ∧
      (v.fmSteps items).audioStream = v.audioStream ++ ys ∧ xs.length = items.length ∧ sameAudio env xs ys ∧
      FmCore.SameReals env (s.fmSteps items).fm (v.fmSteps items).fm := by
  induction items generalizing s v with
  | nil => exact ⟨[], [], (List.append_nil _).symm, (List.append_nil _).symm, rfl, rfl, h⟩
  | cons x items ih =>
    obtain ⟨f, g⟩ := x
    have hnext : FmCore.SameReals env (fmStepped Config.cfg f g s).fm (fmStepped Config.cfg f g v).fm := by
      have ⟨hvalid, halg, hsr, hratio, _⟩ := h
      exact ⟨hvalid, halg, hsr, hratio, h.advancedPhases f⟩
    obtain ⟨xs, ys, hxs, hys, hlength, haudio, hreals⟩ := ih hnext
    rw [fmStepped_audioStream, List.append_assoc] at hxs hys
    exact ⟨_, _, hxs, hys, congrArg (· + 1) hlength, congrArg₂ List.cons (h.sample f g) haudio, hreals⟩

/-- `FM.INIT` loads a second core with the registers of one that keeps its invariant. -/
theorem FmCore.Ok.reload {fm : FmCore} (h : fm.Ok) (hvalid : fm.valid = true) (env : Nat → ℝ) {v : State}
    (hv : v.fault = .none) :
    ∃ (sr : NumOperand) (ratio : Vector NumOperand 6) (fm' : FmCore), sr.value = fm.sr ∧
      (∀ i : Fin 6, ratio[i].value = fm.ratio[i]) ∧
      exec (.fmInit (fm.alg.setWidth 8) sr ratio fm.phase) v = .next (v.setFm fm') ∧ fm'.valid = true ∧
      FmCore.SameReals env fm fm' := by
  obtain ⟨sr, hsr⟩ := exists_numOperand fm.sr
  choose operand hoperand using exists_numOperand
  have hratio (i : Fin 6) : (fm.ratio.map operand)[i].value = fm.ratio[i] := by
    rw [Fin.getElem_fin, Vector.getElem_map, hoperand]
    rfl
  have hwidth : (fm.alg.setWidth 8).toNat = fm.alg.toNat := BitVec.toNat_setWidth_of_le (by decide)
  obtain ⟨fm', hexec, hvalid', halg', hsr', hratio', hphase'⟩ :=
    fmInitLoadsTheCore (fm.alg.setWidth 8) sr (fm.ratio.map operand) fm.phase v hv (by omega) (hsr ▸ h.rate)
      (fun i => hratio i ▸ h.ratios i)
  refine ⟨sr, fm.ratio.map operand, fm', hsr, hratio, hexec, hvalid', hvalid.trans hvalid'.symm,
    BitVec.eq_of_toNat_eq (halg'.trans hwidth).symm, (hsr'.trans hsr).symm, ?_, fun i => ?_⟩
  · ext1 i hi
    exact ((hratio' ⟨i, hi⟩).trans (hratio ⟨i, hi⟩)).symm
  · rw [hphase', h.wrapReal_phase]

/-! The obligations. -/

/-- Settles O50: the working phases are those of the modulation pass. -/
theorem fmStepComputesTheSample : Obligations.FmStepComputesTheSample := by
  intro f g s hs hv
  refine ⟨_, _, _, fmStep_done hs hv, fun env => ⟨realValue_advancedPhases env s.fm f, _,
    realValue_modulationPass env (selected_ok s.fm.alg) g _, realValue_sampleRaw env _ g _,
    realValue_normalised env _ _⟩⟩

/-- Settles O53: `FM.INIT` gives the second core the same reals, which every step keeps. -/
theorem blockSplitCarriesThePhase : Obligations.BlockSplitCarriesThePhase := by
  intro env s v items hinv hs hvalid hv
  obtain ⟨sr, ratio, fm, hsr, hratio, hexec, hvalid', hreals⟩ := (hinv.fm hvalid).reload hvalid env hv
  obtain ⟨xs, ys, hxs, hys, hlength, haudio, hend⟩ := FmCore.SameReals.fmSteps (v := v.setFm fm) hreals items
  exact ⟨sr, ratio, _, _, xs, ys, hsr, hratio, runAll_stepCommands items hs hvalid,
    (runAll_cons _ hexec).trans (runAll_stepCommands items hv hvalid'), hxs, hys, hlength, haudio, hend⟩

/-- Settles O54: the increment is 0, and the phase it leaves is wrapped. -/
theorem zeroFrequencyHoldsThePhase : Obligations.ZeroFrequencyHoldsThePhase := by
  intro env f g s i hinv hs hv
  refine ⟨_, fmStep_done hs hv, hs, realValue_advancedPhases_of_zero ((hinv.fm hv).wrapReal_phase env i), ?_⟩
  rw [fmStepped_fm, realValue_advancedPhases]
  exact wrapReal_range _

/-- Settles O55: a sine is at most 1, and a topology of the configuration has a carrier (R152). -/
theorem outputIsBounded : Obligations.OutputIsBounded := by
  intro env f g s hs hv
  have hraw := abs_carrierSumReal_le (selected Config.cfg s.fm.alg) (reals env g)
    fun m => realValue env (modulationPass (selected Config.cfg s.fm.alg) g (advancedPhases s.fm f))[m]
  rw [← realValue_sampleRaw] at hraw
  exact ⟨_, _, _, fmStep_done hs hv, fmStepped_audioOut .., hraw,
    fun hg => abs_normalised_le (selected_ok _) (hraw.trans (carriers_sum_le _ hg))⟩

/-- Settles O56: neither topology modulates, so Y_RAW is the carrier sum over the phases. -/
theorem scenarioSamples : Obligations.ScenarioSamples := by
  refine ⟨fun env g p => ?_,
    fun f g s hs hv halg => ⟨_, _, _, fmStep_done hs hv, fmStepped_audioOut .., fun env => ?_⟩⟩
  · have hcarrier : ∀ c : Fin 6, isCarrier 0x01000000000 c = decide (c = 0) := by decide
    have hcount : carrierCount 0x01000000000 = 1 := by decide
    rw [realValue_normalised, realValue_sampleRaw_of_none env (by decide), carrierSumReal, hcount]
    simp only [hcarrier, decide_eq_true_eq, Finset.sum_ite_eq', Finset.mem_univ, if_true, reals, Nat.cast_one, mul_one]
  · have hcarrier : ∀ c : Fin 6, isCarrier 0x3F000000000 c = true := by decide
    have hcount : carrierCount 0x3F000000000 = 6 := by decide
    rw [halg, selected_last, realValue_normalised, realValue_sampleRaw_of_none env (by decide), carrierSumReal, hcount,
      fmStepped_fm]
    simp only [hcarrier, if_true, reals]
    ring

/-- Settles O57: the phases a run starts from are wrapped, as those it passes through are. -/
theorem phaseAfterSteps : Obligations.PhaseAfterSteps := fun env items s i hinv hs hv =>
  ⟨_, runAll_stepCommands items hs hv, (s.fmSteps_fault items).trans hs,
    s.realValue_fmSteps_phase items ((hinv.fm hv).wrapReal_phase env i)⟩

end Sys2Proof.Machine
end

section
/-! SUPPORT. The exceptions chapter (60_exceptions): what a step does with the next word, reserved or legal, faulted or not
(R181, R182), the idle step (R197), and the first check that fails on a unit not initialised (R183) or on an algorithm id
out of range (R185). -/

namespace Sys2Proof.Machine

/-! One step (R181, R182). -/

theorem exec_faulted (i : Instr) {s : State} (h : s.fault ≠ .none) : exec i s = .next s := by
  rw [exec_eq, execute_faulted _ _ _ h]

theorem step_command {s : State} {w : Byte} {p : Ports} {rest : List Input} (h : s.pending = .command w p :: rest) :
    step s = runCommand w p { s with pending := rest } := by
  simp only [step, State.takeInput_cons s _ rest h]

theorem runCommand_of_reservedWord {w : Byte} (h : reservedWord w) (p : Ports) (s : State) :
    runCommand w p s = .next (reservedCommand w s) := by
  obtain ⟨why, hwhy⟩ := decodeWord_of_not_legalWord ((reservedWord_iff w).1 h)
  simp only [runCommand, decode_of_error hwhy p]

theorem runCommand_faulted (w : Byte) (p : Ports) {s : State} (h : s.fault ≠ .none) : runCommand w p s = .next s := by
  unfold runCommand
  split
  · next i _ => exact exec_faulted i h
  · exact congrArg Host.Outcome.next (execute_faulted w _ none h)

/-! The unit a command reads (R183). -/

/-- The check of VALID follows that of the index, which an index in range passes. -/
theorem exec_eg_uninit {i : Instr} {e : BitVec 3} {s : State}
    (hchecks : checksOf i s = [(badInstance e, .illegalCmd), (!(s.getEg e).valid, .uninit)]) (hs : s.fault = .none)
    (he : e.toNat < 6) (hv : (s.getEg e).valid = false) : exec i s = .next (raise .uninit i.word s) := by
  refine exec_fails hs ?_
  rw [hchecks, badInstance_eq_false he, hv, firstFailing_cons_false]
  rfl

theorem exec_fmStep_uninit (f : NUM) (g : Vector NUM 6) {s : State} (hs : s.fault = .none) (hv : s.fm.valid = false) :
    exec (.fmStep f g) s = .next (raise .uninit (wordOf 2 0 4) s) := by
  refine exec_fails hs ?_
  rw [checksOf, hv]
  rfl

/-! The algorithm id (R185). -/

theorem badAlgorithm_iff {x : BitVec 8} : badAlgorithm x = true ↔ 31 < x.toNat := decide_eq_true_iff

/-- The id is the first check of `FM.INIT`, before the sample rate and the ratios. -/
theorem exec_fmInit_algRange {alg : BitVec 8} (sr : NumOperand) (ratio : Vector NumOperand 6) (phase0 : Vector NUM 6)
    {s : State} (hs : s.fault = .none) (halg : 31 < alg.toNat) :
    exec (.fmInit alg sr ratio phase0) s = .next (raise .algRange (wordOf 2 0 1) s) := by
  refine exec_fails hs ?_
  rw [checksOf, badAlgorithm_iff.2 halg, firstFailing_cons_true]

/-! The obligations. -/

/-- Settles O3: the decoder answers a reserved word with an error, and its one check fails. -/
theorem reservedWordsRaiseIllegalCmd : Obligations.ReservedWordsRaiseIllegalCmd := by
  intro s w p rest hs hpending hw
  rw [step_command hpending, runCommand_of_reservedWord hw]
  exact congrArg Host.Outcome.next (execute_fails w none hs rfl)

/-- Settles O10: FAULT is looked at before any check, whether the word decodes or not. -/
theorem faultedBlockIgnoresCommands : Obligations.FaultedBlockIgnoresCommands :=
  ⟨fun i _ hs => exec_faulted i hs, fun _ w p _ hs hpending => (step_command hpending).trans (runCommand_faulted w p hs)⟩

/-- Settles O12: the three EG commands share their checks, and `FM.STEP` has the one. -/
theorem uninitialisedUnitRaisesUninit : Obligations.UninitialisedUnitRaisesUninit := fun _ hs =>
  ⟨fun _ he hv => ⟨exec_eg_uninit rfl hs he hv, exec_eg_uninit rfl hs he hv, exec_eg_uninit rfl hs he hv⟩,
    fun hv f g => exec_fmStep_uninit f g hs hv⟩

/-- Settles O7: there is no input to take. -/
theorem idleBlockHoldsItsState : Obligations.IdleBlockHoldsItsState := by
  intro s hpending
  simp only [step, State.takeInput_nil s hpending]

/-- Settles O14: the check that fails is the first. -/
theorem algorithmOutOfRangeRaisesAlgRange : Obligations.AlgorithmOutOfRangeRaisesAlgRange :=
  fun _ _ sr ratio phase0 hs halg => exec_fmInit_algRange sr ratio phase0 hs halg

end Sys2Proof.Machine
end
